-- ==== Sys2Proof/Word.lean ====
section
/-! DEFINITION. The word types of the block: what the spec treats as bits (spec/00_scope.md R5, R6; spec/10_state.md). -/

namespace Sys2Proof

/-- A byte: a general register, a timer, a memory cell (R21, R29, R31). -/
abbrev Byte := BitVec 8

/-- A 12-bit address: `I`, `PC`, a stack entry, `nnn` (R24, R25, R28, R72). -/
abbrev Addr := BitVec 12

/-- A 16-bit opcode word (R70). -/
abbrev OpWord := BitVec 16

/-- A nibble of an opcode word (R71). -/
abbrev Nibble := BitVec 4

/-- The index of a general register, always a nibble of the word (R21). -/
abbrev RegIdx := BitVec 4

/-- The index of a key flag, 0 to 15 (R33). -/
abbrev KeyIdx := BitVec 4

end Sys2Proof
end

