-- ==== Sys2Proof/Syntax.lean ====
section
/-! DEFINITION. The instructions: one constructor per row of spec/opcode_table.json, in the order of spec/30_encoding.md R73. -/

namespace Sys2Proof

/-- The 35 instructions with the operand fields their patterns name (R72, R73). `shr` and `shl` keep the encoded `y`, which
their handlers do not read (R80, R139, R141). -/
inductive Instr where
  | sys (nnn : Addr)
  | cls
  | ret
  | jp (nnn : Addr)
  | call (nnn : Addr)
  | seByte (x : RegIdx) (kk : Byte)
  | sneByte (x : RegIdx) (kk : Byte)
  | seReg (x y : RegIdx)
  | ldByte (x : RegIdx) (kk : Byte)
  | addByte (x : RegIdx) (kk : Byte)
  | ldReg (x y : RegIdx)
  | orReg (x y : RegIdx)
  | andReg (x y : RegIdx)
  | xorReg (x y : RegIdx)
  | addReg (x y : RegIdx)
  | subReg (x y : RegIdx)
  | shr (x y : RegIdx)
  | subnReg (x y : RegIdx)
  | shl (x y : RegIdx)
  | sneReg (x y : RegIdx)
  | ldI (nnn : Addr)
  | jpV0 (nnn : Addr)
  | rnd (x : RegIdx) (kk : Byte)
  | drw (x y : RegIdx) (n : Nibble)
  | skp (x : RegIdx)
  | sknp (x : RegIdx)
  | ldVxDt (x : RegIdx)
  | ldVxKey (x : RegIdx)
  | ldDtVx (x : RegIdx)
  | ldStVx (x : RegIdx)
  | addI (x : RegIdx)
  | ldFont (x : RegIdx)
  | ldBcd (x : RegIdx)
  | storeRegs (x : RegIdx)
  | loadRegs (x : RegIdx)
deriving DecidableEq, Repr

end Sys2Proof
end

