-- ==== Sys2Proof/WellFormed.lean ====
section
/-! DEFINITION. Which instructions some opcode word stands for. -/

namespace Sys2Proof

/-- Every operand is a field of its own width, so a register index, byte or address is always in range (R21, R72). The one
check left is that `SYS` does not carry the operand of a word that the most-specific rule gives to `CLS` (`00E0`) or `RET`
(`00EE`) (spec/30_encoding.md R75, R79). -/
def Instr.wellFormed : Instr → Bool
  | .sys nnn => nnn != 0x0E0#12 && nnn != 0x0EE#12
  | .cls | .ret => true
  | .jp _ | .call _ | .ldI _ | .jpV0 _ => true
  | .seByte _ _ | .sneByte _ _ | .ldByte _ _ | .addByte _ _ | .rnd _ _ => true
  | .seReg _ _ | .sneReg _ _ | .ldReg _ _ | .orReg _ _ | .andReg _ _ | .xorReg _ _ => true
  | .addReg _ _ | .subReg _ _ | .shr _ _ | .subnReg _ _ | .shl _ _ => true
  | .drw _ _ _ => true
  | .skp _ | .sknp _ | .ldVxDt _ | .ldVxKey _ | .ldDtVx _ | .ldStVx _ => true
  | .addI _ | .ldFont _ | .ldBcd _ | .storeRegs _ | .loadRegs _ => true

end Sys2Proof
end

