-- ==== Sys2Proof/Decode.lean ====
section
/-! DEFINITION. The decoder, the encoder, the pattern table with its most-specific-match rule, the decoder's ports
(spec/30_encoding.md R70 to R83), and the byte layout of a word (spec/20_memory.md R52). -/

namespace Sys2Proof

/-! ## Fields of a word -/

/-- Nibble 0, the most significant (R71). -/
def nib0 (w : OpWord) : Nibble := w.extractLsb' 12 4
/-- Nibble 1 (R71); also the field `x` (R72). -/
def nib1 (w : OpWord) : Nibble := w.extractLsb' 8 4
/-- Nibble 2 (R71); also the field `y` (R72). -/
def nib2 (w : OpWord) : Nibble := w.extractLsb' 4 4
/-- Nibble 3, the least significant (R71); also the field `n` (R72). -/
def nib3 (w : OpWord) : Nibble := w.extractLsb' 0 4
/-- The byte immediate `kk = w[7:0]` (R72). -/
def fieldKk (w : OpWord) : Byte := w.extractLsb' 0 8
/-- The address immediate `nnn = w[11:0]` (R72). -/
def fieldNnn (w : OpWord) : Addr := w.extractLsb' 0 12

/-! ## The decoder -/

/-- The decoder's answer: a kind with its fields, or `Illegal` (R75). -/
inductive Decoded where
  | ok (i : Instr)
  | illegal
deriving DecidableEq, Repr

/-- Words `0nnn`: `00E0` and `00EE` are more specific than `SYS` (R75). -/
def decodeGroup0 (n1 n2 n3 : Nibble) : Decoded :=
  if n1 = 0x0#4 ∧ n2 = 0xE#4 ∧ n3 = 0x0#4 then .ok .cls
  else if n1 = 0x0#4 ∧ n2 = 0xE#4 ∧ n3 = 0xE#4 then .ok .ret
  else .ok (.sys (n1 ++ n2 ++ n3))

/-- Words `8xyN`, chosen by their last nibble (R73). -/
def decodeGroup8 (x y n3 : Nibble) : Decoded :=
  match n3.toNat with
  | 0x0 => .ok (.ldReg x y)
  | 0x1 => .ok (.orReg x y)
  | 0x2 => .ok (.andReg x y)
  | 0x3 => .ok (.xorReg x y)
  | 0x4 => .ok (.addReg x y)
  | 0x5 => .ok (.subReg x y)
  | 0x6 => .ok (.shr x y)
  | 0x7 => .ok (.subnReg x y)
  | 0xE => .ok (.shl x y)
  | _ => .illegal

/-- Words `Exkk`, chosen by their last byte (R73). -/
def decodeGroupE (x : Nibble) (kk : Byte) : Decoded :=
  match kk.toNat with
  | 0x9E => .ok (.skp x)
  | 0xA1 => .ok (.sknp x)
  | _ => .illegal

/-- Words `Fxkk`, chosen by their last byte (R73). -/
def decodeGroupF (x : Nibble) (kk : Byte) : Decoded :=
  match kk.toNat with
  | 0x07 => .ok (.ldVxDt x)
  | 0x0A => .ok (.ldVxKey x)
  | 0x15 => .ok (.ldDtVx x)
  | 0x18 => .ok (.ldStVx x)
  | 0x1E => .ok (.addI x)
  | 0x29 => .ok (.ldFont x)
  | 0x33 => .ok (.ldBcd x)
  | 0x55 => .ok (.storeRegs x)
  | 0x65 => .ok (.loadRegs x)
  | _ => .illegal

/-- The decoder on the four nibbles: every literal nibble of a pattern is compared (R74, R75), `x = n1`, `y = n2`, `n = n3`,
`kk = n2:n3`, `nnn = n1:n2:n3` (R72). -/
def decodeNibbles (n0 n1 n2 n3 : Nibble) : Decoded :=
  match n0.toNat with
  | 0x0 => decodeGroup0 n1 n2 n3
  | 0x1 => .ok (.jp (n1 ++ n2 ++ n3))
  | 0x2 => .ok (.call (n1 ++ n2 ++ n3))
  | 0x3 => .ok (.seByte n1 (n2 ++ n3))
  | 0x4 => .ok (.sneByte n1 (n2 ++ n3))
  | 0x5 => if n3 = 0x0#4 then .ok (.seReg n1 n2) else .illegal
  | 0x6 => .ok (.ldByte n1 (n2 ++ n3))
  | 0x7 => .ok (.addByte n1 (n2 ++ n3))
  | 0x8 => decodeGroup8 n1 n2 n3
  | 0x9 => if n3 = 0x0#4 then .ok (.sneReg n1 n2) else .illegal
  | 0xA => .ok (.ldI (n1 ++ n2 ++ n3))
  | 0xB => .ok (.jpV0 (n1 ++ n2 ++ n3))
  | 0xC => .ok (.rnd n1 (n2 ++ n3))
  | 0xD => .ok (.drw n1 n2 n3)
  | 0xE => decodeGroupE n1 (n2 ++ n3)
  | _ => decodeGroupF n1 (n2 ++ n3)

/-- The decoder: a pure, total function of the 16-bit word (R77). -/
def decodeWord (w : OpWord) : Decoded :=
  decodeNibbles (nib0 w) (nib1 w) (nib2 w) (nib3 w)

/-! ## Words and bytes -/

/-- The word of two consecutive bytes, the first the most significant (R52). -/
def wordOfBytes (hi lo : Byte) : OpWord := hi ++ lo

/-- The byte of a word that is stored at the lower address (R52). -/
def highByte (w : OpWord) : Byte := w.extractLsb' 8 8

/-- The byte of a word that is stored at the higher address (R52). -/
def lowByte (w : OpWord) : Byte := w.extractLsb' 0 8

/-- Why a list of bytes begins with no instruction. -/
inductive DecodeError where
  /-- The first two bytes are a word that no pattern resolves (R75, R79). -/
  | illegalWord (w : OpWord)
  /-- Fewer than two bytes; every instruction is two bytes long (R70), and a step always fetches two. -/
  | tooShort
deriving DecidableEq, Repr

/-- The answer on a list of bytes: the instruction and the bytes after it, or why there is none. -/
inductive DecodedBytes where
  | ok (i : Instr) (rest : List Byte)
  | error (e : DecodeError)
deriving DecidableEq, Repr

/-- Decoding the front of a list of bytes, total on any list (R52, R70, R75). -/
def decodeBytes : List Byte → DecodedBytes
  | hi :: lo :: rest =>
    match decodeWord (wordOfBytes hi lo) with
    | .ok i => .ok i rest
    | .illegal => .error (.illegalWord (wordOfBytes hi lo))
  | _ => .error .tooShort

/-! ## The encoder -/

/-- The word of an instruction, from the patterns of R73 and the field positions of R72. -/
def encode : Instr → OpWord
  | .sys nnn => 0x0#4 ++ nnn
  | .cls => 0x00E0#16
  | .ret => 0x00EE#16
  | .jp nnn => 0x1#4 ++ nnn
  | .call nnn => 0x2#4 ++ nnn
  | .seByte x kk => 0x3#4 ++ x ++ kk
  | .sneByte x kk => 0x4#4 ++ x ++ kk
  | .seReg x y => 0x5#4 ++ x ++ y ++ 0x0#4
  | .ldByte x kk => 0x6#4 ++ x ++ kk
  | .addByte x kk => 0x7#4 ++ x ++ kk
  | .ldReg x y => 0x8#4 ++ x ++ y ++ 0x0#4
  | .orReg x y => 0x8#4 ++ x ++ y ++ 0x1#4
  | .andReg x y => 0x8#4 ++ x ++ y ++ 0x2#4
  | .xorReg x y => 0x8#4 ++ x ++ y ++ 0x3#4
  | .addReg x y => 0x8#4 ++ x ++ y ++ 0x4#4
  | .subReg x y => 0x8#4 ++ x ++ y ++ 0x5#4
  | .shr x y => 0x8#4 ++ x ++ y ++ 0x6#4
  | .subnReg x y => 0x8#4 ++ x ++ y ++ 0x7#4
  | .shl x y => 0x8#4 ++ x ++ y ++ 0xE#4
  | .sneReg x y => 0x9#4 ++ x ++ y ++ 0x0#4
  | .ldI nnn => 0xA#4 ++ nnn
  | .jpV0 nnn => 0xB#4 ++ nnn
  | .rnd x kk => 0xC#4 ++ x ++ kk
  | .drw x y n => 0xD#4 ++ x ++ y ++ n
  | .skp x => 0xE#4 ++ x ++ 0x9E#8
  | .sknp x => 0xE#4 ++ x ++ 0xA1#8
  | .ldVxDt x => 0xF#4 ++ x ++ 0x07#8
  | .ldVxKey x => 0xF#4 ++ x ++ 0x0A#8
  | .ldDtVx x => 0xF#4 ++ x ++ 0x15#8
  | .ldStVx x => 0xF#4 ++ x ++ 0x18#8
  | .addI x => 0xF#4 ++ x ++ 0x1E#8
  | .ldFont x => 0xF#4 ++ x ++ 0x29#8
  | .ldBcd x => 0xF#4 ++ x ++ 0x33#8
  | .storeRegs x => 0xF#4 ++ x ++ 0x55#8
  | .loadRegs x => 0xF#4 ++ x ++ 0x65#8

/-- The two bytes of an instruction as memory holds them, the lower address first (R52). -/
def encodeBytes (i : Instr) : List Byte := [highByte (encode i), lowByte (encode i)]

/-! ## The pattern table and its resolution -/

/-- The decoder's `kind` number of an instruction (R73, R83). -/
def kindOf : Instr → Nat
  | .sys _ => 0 | .cls => 1 | .ret => 2 | .jp _ => 3 | .call _ => 4 | .seByte _ _ => 5 | .sneByte _ _ => 6
  | .seReg _ _ => 7 | .ldByte _ _ => 8 | .addByte _ _ => 9 | .ldReg _ _ => 10 | .orReg _ _ => 11 | .andReg _ _ => 12
  | .xorReg _ _ => 13 | .addReg _ _ => 14 | .subReg _ _ => 15 | .shr _ _ => 16 | .subnReg _ _ => 17 | .shl _ _ => 18
  | .sneReg _ _ => 19 | .ldI _ => 20 | .jpV0 _ => 21 | .rnd _ _ => 22 | .drw _ _ _ => 23 | .skp _ => 24 | .sknp _ => 25
  | .ldVxDt _ => 26 | .ldVxKey _ => 27 | .ldDtVx _ => 28 | .ldStVx _ => 29 | .addI _ => 30 | .ldFont _ => 31
  | .ldBcd _ => 32 | .storeRegs _ => 33 | .loadRegs _ => 34

/-- A row of the pattern table: its kind and four fields, each a literal nibble or don't care (R73). -/
structure Pattern where
  kind : Nat
  lit0 : Option Nibble
  lit1 : Option Nibble
  lit2 : Option Nibble
  lit3 : Option Nibble
deriving DecidableEq, Repr

/-- The rows of R73 whose first nibble is at most 7. -/
def patternsLow : List Pattern :=
  [⟨0, some 0x0, none, none, none⟩, ⟨1, some 0x0, some 0x0, some 0xE, some 0x0⟩,
   ⟨2, some 0x0, some 0x0, some 0xE, some 0xE⟩, ⟨3, some 0x1, none, none, none⟩, ⟨4, some 0x2, none, none, none⟩,
   ⟨5, some 0x3, none, none, none⟩, ⟨6, some 0x4, none, none, none⟩, ⟨7, some 0x5, none, none, some 0x0⟩,
   ⟨8, some 0x6, none, none, none⟩, ⟨9, some 0x7, none, none, none⟩]

/-- The rows of R73 whose first nibble is 8 to D. -/
def patternsMid : List Pattern :=
  [⟨10, some 0x8, none, none, some 0x0⟩, ⟨11, some 0x8, none, none, some 0x1⟩, ⟨12, some 0x8, none, none, some 0x2⟩,
   ⟨13, some 0x8, none, none, some 0x3⟩, ⟨14, some 0x8, none, none, some 0x4⟩, ⟨15, some 0x8, none, none, some 0x5⟩,
   ⟨16, some 0x8, none, none, some 0x6⟩, ⟨17, some 0x8, none, none, some 0x7⟩, ⟨18, some 0x8, none, none, some 0xE⟩,
   ⟨19, some 0x9, none, none, some 0x0⟩, ⟨20, some 0xA, none, none, none⟩, ⟨21, some 0xB, none, none, none⟩,
   ⟨22, some 0xC, none, none, none⟩, ⟨23, some 0xD, none, none, none⟩]

/-- The rows of R73 whose first nibble is E or F. -/
def patternsHigh : List Pattern :=
  [⟨24, some 0xE, none, some 0x9, some 0xE⟩, ⟨25, some 0xE, none, some 0xA, some 0x1⟩,
   ⟨26, some 0xF, none, some 0x0, some 0x7⟩, ⟨27, some 0xF, none, some 0x0, some 0xA⟩,
   ⟨28, some 0xF, none, some 0x1, some 0x5⟩, ⟨29, some 0xF, none, some 0x1, some 0x8⟩,
   ⟨30, some 0xF, none, some 0x1, some 0xE⟩, ⟨31, some 0xF, none, some 0x2, some 0x9⟩,
   ⟨32, some 0xF, none, some 0x3, some 0x3⟩, ⟨33, some 0xF, none, some 0x5, some 0x5⟩,
   ⟨34, some 0xF, none, some 0x6, some 0x5⟩]

/-- The 35 patterns, in the order of their kinds (R73). -/
def patterns : List Pattern := patternsLow ++ patternsMid ++ patternsHigh

/-- A field matches a nibble when it is don't care or that literal (R74). -/
def litMatches (lit : Option Nibble) (nib : Nibble) : Bool :=
  match lit with
  | none => true
  | some l => l == nib

/-- `matches(p, w)` (R74). -/
def Pattern.matchesWord (p : Pattern) (w : OpWord) : Bool :=
  litMatches p.lit0 (nib0 w) && litMatches p.lit1 (nib1 w) && litMatches p.lit2 (nib2 w) && litMatches p.lit3 (nib3 w)

/-- `spec(p)`: the number of literal nibbles (R73). -/
def Pattern.specificity (p : Pattern) : Nat :=
  ([p.lit0, p.lit1, p.lit2, p.lit3].filter Option.isSome).length

/-- The largest specificity in a list of patterns (R75). -/
def maxSpecificity : List Pattern → Nat
  | [] => 0
  | p :: ps => max p.specificity (maxSpecificity ps)

/-- The resolution of R75 read off the table: the one most specific matching pattern's kind, or none if no pattern matches or
the best is not unique. -/
def resolveKind (w : OpWord) : Option Nat :=
  let m := patterns.filter (·.matchesWord w)
  let best := m.filter (·.specificity == maxSpecificity m)
  match best with
  | [p] => some p.kind
  | _ => none

/-! ## The decoder's ports -/

/-- The decoder's output ports (R78). -/
structure Ports where
  valid : Bool
  kind  : BitVec 6
  n0    : Nibble
  n1    : Nibble
  n2    : Nibble
  n3    : Nibble
  x     : Nibble
  y     : Nibble
  n     : Nibble
  kk    : Byte
  nnn   : Addr
deriving DecidableEq, Repr

/-- The `valid` and `kind` ports; `kind` is 0 when the word is illegal (R78). -/
def decodedPorts : Decoded → Bool × BitVec 6
  | .ok i => (true, BitVec.ofNat 6 (kindOf i))
  | .illegal => (false, 0)

/-- What the decoder presents for an opcode word: every field, whatever the word is (R72, R78). -/
def decoderPorts (w : OpWord) : Ports where
  valid := (decodedPorts (decodeWord w)).1
  kind  := (decodedPorts (decodeWord w)).2
  n0    := nib0 w
  n1    := nib1 w
  n2    := nib2 w
  n3    := nib3 w
  x     := nib1 w
  y     := nib2 w
  n     := nib3 w
  kk    := fieldKk w
  nnn   := fieldNnn w

/-! ## The opcode table's numbering -/

/-- The bytes of an instruction given as spec/opcode_table.json numbers its bits (bit 0 the least significant of the first and
only word), laid out as memory holds them; bits at `nbits` and above are 0 (log 9). -/
def tableBytes (nbits w : Nat) : List Byte :=
  [highByte (BitVec.ofNat 16 (w % 2 ^ nbits)), lowByte (BitVec.ofNat 16 (w % 2 ^ nbits))]

/-- The instruction the decoder reads from a word numbered as the opcode table numbers it. -/
def decodeTableWord (nbits w : Nat) : Option Instr :=
  match decodeBytes (tableBytes nbits w) with
  | .ok i _ => some i
  | .error _ => none

end Sys2Proof
end

