-- ==== Sys2Proof/Config.lean ====
section
/-! DEFINITION. What an implementation fixes (the parameters of spec/00_scope.md R5) and the one free value, the random byte. -/

namespace Sys2Proof.Config

/-- `SYS_MODE`: what a `0nnn` word does (R5, R101; spec/92_eei_decisions.md D6). -/
inductive SysMode where
  | illegal
  | nop
deriving DecidableEq, Repr

/-- `KEY_OOR`: which key a register value above 15 names (R5, R222; D10). -/
inductive KeyOor where
  | notPressed
  | lowNibble
deriving DecidableEq, Repr

/-- The 80 bytes of `FONT`, 16 glyphs of 5 bytes (R5, R37; D13). -/
abbrev Font := Vector Byte 80

/-- The parameters of the block, fixed for one machine (R5). DESIGN CHOICE (log 2): `State` carries them, because the fixed
form of `exec` has no other argument for them; no operation writes them. Safe: a statement about every state holds for every
value of the parameters. -/
structure Params where
  sysMode     : SysMode
  fx0aConsume : Bool
  keyOor      : KeyOor
  font        : Font
deriving DecidableEq, Repr

/-- The random byte of the `n`-th draw: "an 8-bit draw with no law" (R142; D16). It has no body, so no proof can know its
value. DESIGN CHOICE (log 1): the draw is taken at a counter of `State`. Safe. -/
opaque randByte : Nat → Byte

end Sys2Proof.Config
end

