-- ==== Sys2Proof/Machine/Defaults.lean ====
section
/-! DEFINITION. The fixed numbers of the block and the default values of its parameters (spec/00_scope.md R5,
spec/10_state.md R37). -/

namespace Sys2Proof.Machine

/-- `MEM_SIZE`: the bytes of memory (R5, R31). -/
def memSize : Nat := 4096

/-- `RESET_PC`: the program counter after reset (R5, R36, R282). -/
def resetPc : Addr := 0x200#12

/-- `LOAD_BASE_DEFAULT`: where a program is loaded when no base is given (R5, R252). -/
def loadBaseDefault : Nat := 0x200

/-- `FONT_BASE`: the address of glyph 0 (R5, R37). -/
def fontBase : Nat := 0

/-- `FONT_GLYPH_BYTES`: the bytes of one glyph (R5, R37). -/
def fontGlyphBytes : Nat := 5

/-- The glyphs of the digits 0 to 7 in the default font (R37). -/
def glyphsLow : Vector Byte 40 :=
  #v[0xF0, 0x90, 0x90, 0x90, 0xF0, 0x20, 0x60, 0x20, 0x20, 0x70,
     0xF0, 0x10, 0xF0, 0x80, 0xF0, 0xF0, 0x10, 0xF0, 0x10, 0xF0,
     0x90, 0x90, 0xF0, 0x10, 0x10, 0xF0, 0x80, 0xF0, 0x10, 0xF0,
     0xF0, 0x80, 0xF0, 0x90, 0xF0, 0xF0, 0x10, 0x20, 0x40, 0x40]

/-- The glyphs of the digits 8 to F in the default font (R37). -/
def glyphsHigh : Vector Byte 40 :=
  #v[0xF0, 0x90, 0xF0, 0x90, 0xF0, 0xF0, 0x90, 0xF0, 0x10, 0xF0,
     0xF0, 0x90, 0xF0, 0x90, 0x90, 0xE0, 0x90, 0xE0, 0x90, 0xE0,
     0xF0, 0x80, 0x80, 0x80, 0xF0, 0xE0, 0x90, 0x90, 0x90, 0xE0,
     0xF0, 0x80, 0xF0, 0x80, 0xF0, 0xF0, 0x80, 0xF0, 0x80, 0x80]

/-- The default of `FONT`: "the font commonly used by CHIP-8 interpreters", which the spec supplies from general knowledge
(R37; spec/92_eei_decisions.md D13; log 3). -/
def defaultFont : Config.Font := glyphsLow ++ glyphsHigh

/-- The default parameters: `SYS_MODE = illegal`, `FX0A_CONSUME = true`, `KEY_OOR = not_pressed`, the default font (R5). -/
def defaultParams : Config.Params where
  sysMode     := .illegal
  fx0aConsume := true
  keyOor      := .notPressed
  font        := defaultFont

end Sys2Proof.Machine
end

