-- ==== Sys2Proof/Machine/Memory.lean ====
section
/-! DEFINITION. Memory as plain data: a list of (address, byte) pairs in one canonical form, and its reads and writes
(spec/20_memory.md R50, R51, R55; spec/10_state.md R31, R36). Addresses here are already reduced modulo 4096. -/

namespace Sys2Proof.Machine

/-- The contents of memory that differ from its reset contents. -/
abbrev Mem := List Host.Cell

/-- What an address that the list does not name reads as: the reset contents, `FONT` at 0 to 79 and 0 above (R36, R37). -/
def Memory.background (font : Config.Font) (a : Nat) : Byte :=
  if h : a < 80 then font[a] else 0

/-- The byte at an address (R51, R55). -/
def Memory.read (font : Config.Font) : Mem → Nat → Byte
  | [], a => Memory.background font a
  | c :: m, a => if c.1 = a then c.2 else Memory.read font m a

/-- The list without any entry for an address. -/
def Memory.erase (a : Nat) (m : Mem) : Mem := m.filter (fun c => c.1 != a)

/-- An entry put before the first entry of a higher address. -/
def Memory.insert (a : Nat) (v : Byte) : Mem → Mem
  | [] => [(a, v)]
  | c :: m => if a < c.1 then (a, v) :: c :: m else c :: Memory.insert a v m

/-- `MEM[a] <- v` (R51). Writing what the address would read as anyway removes its entry, so equal memories are equal lists. -/
def Memory.write (font : Config.Font) (a : Nat) (v : Byte) (m : Mem) : Mem :=
  if v = Memory.background font a then Memory.erase a m else Memory.insert a v (Memory.erase a m)

/-- The bytes of a list written at consecutive addresses from `a` up: the loop of `Load` (R252). -/
def Memory.writeList (font : Config.Font) : Nat → List Byte → Mem → Mem
  | _, [], m => m
  | a, b :: bs, m => Memory.writeList font (a + 1) bs (Memory.write font a b m)

/-- The canonical form above a lowest address: strictly rising addresses inside memory, no entry equal to the reset contents. -/
def Memory.wfFrom (font : Config.Font) : Nat → Mem → Bool
  | _, [] => true
  | lo, c :: m =>
    decide (lo ≤ c.1) && decide (c.1 < memSize) && decide (c.2 ≠ Memory.background font c.1) && Memory.wfFrom font (c.1 + 1) m

/-- The canonical form. -/
def Memory.wf (font : Config.Font) (m : Mem) : Bool := Memory.wfFrom font 0 m

end Sys2Proof.Machine
end

