-- ==== Sys2Proof/Machine/State.lean ====
section
/-! DEFINITION. The architectural state (spec/10_state.md R20 to R37), its reset value, and the ways a step can stop. -/

namespace Sys2Proof.Machine

/-- The display buffer: 32 rows, top row first, of 64 one-bit cells, column 0 first (R32). -/
abbrev Display := Vector (Vector Bool 64) 32

/-- The state of the block (R20), and two fields that are the model's own: its parameters and its count of random draws. -/
structure State where
  /-- General registers V0 to VF; VF is also the flag register (R21, R23). -/
  v     : Vector Byte 16
  /-- The index register (R24). -/
  i     : Addr
  /-- The program counter: the address of the word being executed (R25). -/
  pc    : Addr
  /-- The stack pointer: entries pushed, modulo 16 (R27). -/
  sp    : BitVec 4
  /-- The call stack: 16 return addresses (R28). -/
  stack : Vector Addr 16
  /-- The delay timer (R29). -/
  dt    : Byte
  /-- The sound timer (R29, R230). -/
  st    : Byte
  /-- Memory: what differs from its reset contents (R31, R36). -/
  mem   : Mem
  /-- The display buffer (R32). -/
  disp  : Display
  /-- The input latch: one flag per hex key (R33). -/
  keys  : Vector Bool 16
  /-- The parameters of the machine (R5), written by nothing. DESIGN CHOICE, log 2. Safe. -/
  cfg   : Config.Params
  /-- How many random bytes have been drawn: the model's own, not the spec's. DESIGN CHOICE, log 1. Safe. -/
  draws : Nat
deriving DecidableEq, Repr

/-- Why the machine stops: the two errors of the block (spec/60_exceptions.md R250). -/
inductive Fault where
  /-- `IllegalOpcode(word, pc)`: raised by a step whose word decodes to `Illegal`, and by `SYS` under `SYS_MODE = illegal`
  (R101, R251). No state is written. Safe: the spec reports the error to the host, and a model treats it as a fault (D21). -/
  | illegalOpcode (word : OpWord) (pc : Addr)
  /-- `LoadOverflow(base, len)`: raised by the host operation `Load` alone, before any byte is written (R252). Safe: the spec
  reports the error to the host. -/
  | loadOverflow (base len : Nat)
deriving DecidableEq, Repr

/-- Why an instruction has no meaning in this model. -/
inductive Refusal where
  /-- An instruction that has no meaning yet, by its mnemonic. Raised only by arms of `exec` that are still rejected by name;
  none is left. Safe. -/
  | notModelled (mnemonic : String)
deriving DecidableEq, Repr

/-- How a step or a host operation ends. -/
abbrev Result := Host.Outcome State Fault Refusal

/-- The state after construction or `Reset`, for given parameters (R36, R280, R281). -/
def State.initial (params : Config.Params) : State where
  v     := Vector.replicate 16 0
  i     := 0
  pc    := resetPc
  sp    := 0
  stack := Vector.replicate 16 0
  dt    := 0
  st    := 0
  mem   := []
  disp  := Vector.replicate 32 (Vector.replicate 64 false)
  keys  := Vector.replicate 16 false
  cfg   := params
  draws := 0

/-- The machine right after reset, with the default parameters (R5, R36). The value of `draws` is a DESIGN CHOICE, log 1. -/
def State.reset : State := State.initial defaultParams

end Sys2Proof.Machine
end

