-- ==== Sys2Proof/Machine/Ops.lean ====
section
/-! DEFINITION. The named operations over registers, stack, memory, display, latch and program counter
(spec/00_scope.md R8), and the one way an instruction raises an error (spec/60_exceptions.md R251). -/

namespace Sys2Proof.Machine

/-! ## Registers -/

/-- `V[x]` (R8, R21). -/
def readV (x : RegIdx) (s : State) : Byte := s.v[x.toNat]'x.isLt

/-- `V[x] <- b` (R8, R21). -/
def writeV (x : RegIdx) (b : Byte) (s : State) : State := { s with v := s.v.set x.toNat b x.isLt }

/-- `VF`, the flag register: general register 15 (R23). -/
def vf : RegIdx := 0xF#4

/-- `I <- a` (R8, R24). -/
def writeI (a : Addr) (s : State) : State := { s with i := a }

/-- `DT <- b` (R8, R29). -/
def writeDt (b : Byte) (s : State) : State := { s with dt := b }

/-- `ST <- b` (R8, R29). -/
def writeSt (b : Byte) (s : State) : State := { s with st := b }

/-! ## Program counter -/

/-- `pc <- a` (R8, R25). -/
def writePc (a : Addr) (s : State) : State := { s with pc := a }

/-- `next`: the address of the following word, modulo 4096 (R8, R25). -/
def nextAddr (s : State) : Addr := s.pc + 2#12

/-- `skip`: the address two words on, modulo 4096 (R8, R25). -/
def skipAddr (s : State) : Addr := s.pc + 4#12

/-- `pc <- next` (R8). -/
def advance (s : State) : State := writePc (nextAddr s) s

/-- `if taken : pc <- skip else : pc <- next` (R8, R100). -/
def skipIf (taken : Bool) (s : State) : State := writePc (if taken then skipAddr s else nextAddr s) s

/-! ## Call stack -/

/-- `STACK[j]` (R8, R28). -/
def readStack (j : BitVec 4) (s : State) : Addr := s.stack[j.toNat]'j.isLt

/-- A push: the address goes to `STACK[SP]`, then SP grows by one modulo 16 (R27). -/
def push (a : Addr) (s : State) : State := { s with stack := s.stack.set s.sp.toNat a s.sp.isLt, sp := s.sp + 1#4 }

/-- A pop: SP falls by one modulo 16; the popped entry is `STACK[SP]` afterwards and keeps its value (R27, R28). -/
def pop (s : State) : State := { s with sp := s.sp - 1#4 }

/-! ## Memory -/

/-- `MemRead(a, 1)` (R51). -/
def readByte (a : Addr) (s : State) : Byte := Memory.read s.cfg.font s.mem a.toNat

/-- `MemWrite(a, 1, b)` (R51). -/
def writeByte (a : Addr) (b : Byte) (s : State) : State := { s with mem := Memory.write s.cfg.font a.toNat b s.mem }

/-- The opcode word at the program counter: the byte at PC is the high byte, the byte at PC + 1 modulo 4096 the low one (R52). -/
def fetchWord (s : State) : OpWord := wordOfBytes (readByte s.pc s) (readByte (s.pc + 1#12) s)

/-! ## Display -/

/-- `DISP[px][py]` of a display (R8, R32). -/
def Display.cell (d : Display) (px : Fin 64) (py : Fin 32) : Bool := d[py.val][px.val]

/-- `DISP[px][py] <- b` (R8, R32). -/
def Display.setCell (d : Display) (px : Fin 64) (py : Fin 32) (b : Bool) : Display :=
  d.set py.val (d[py.val].set px.val b)

/-- The display with every cell 0 (R200). -/
def blankDisplay : Display := Vector.replicate 32 (Vector.replicate 64 false)

/-- `DISP[px][py]` (R8, R32). -/
def readCell (px : Fin 64) (py : Fin 32) (s : State) : Bool := Display.cell s.disp px py

/-- The whole display buffer replaced. -/
def writeDisplay (d : Display) (s : State) : State := { s with disp := d }

/-! ## Input latch -/

/-- `KEYS[k]` (R8, R33). -/
def readKey (k : KeyIdx) (s : State) : Bool := s.keys[k.toNat]'k.isLt

/-- `KEYS[k] <- b` (R8, R33). -/
def writeKey (k : KeyIdx) (b : Bool) (s : State) : State := { s with keys := s.keys.set k.toNat b k.isLt }

/-! ## Random draws -/

/-- One more random byte drawn: the counter of the model moves on (log 1). -/
def countDraw (s : State) : State := { s with draws := s.draws + 1 }

/-! ## Errors -/

/-- `raise IllegalOpcode(word, PC)`: the step ends with the word and the PC it was fetched from, and nothing is written (R8,
R251). This is the whole of taking an exception on this block: nothing is saved, no mode changes, no handler is entered, and
there is no return from one (R254, R255). -/
def raiseIllegalOpcode (word : OpWord) (s : State) : Result := .fault (.illegalOpcode word s.pc)

end Sys2Proof.Machine
end

