-- ==== Sys2Proof/Machine/Operands.lean ====
section
/-! DEFINITION. The operand forms: the data address `I + k`, the key that a register value names, the pressed keys, the
sprite pixel and the font glyph address (spec/42_index_memory.md R169, R172; spec/43_display.md R201, R202;
spec/44_keys_timers.md R222, R223). -/

namespace Sys2Proof.Machine

/-- A register value as a 12-bit number; it never changes the value (R7). -/
def zext12 (b : Byte) : Addr := b.setWidth 12

/-- The effective address of byte `k`: `(I + k) & 0xFFF` (R169). -/
def dataAddr (i0 : Addr) (k : Nat) : Addr := i0 + BitVec.ofNat 12 k

/-- The address of the glyph of a register value: `(FONT_BASE + 5 * vx) & 0xFFF`, with no reduction of the value to a hex digit
(R172; D14). -/
def glyphAddr (vx : Byte) : Addr := BitVec.ofNat 12 (fontBase + fontGlyphBytes * vx.toNat)

/-- `key_of(v)`: the key a register value names for `Ex9E` and `ExA1` (R222). -/
def keyOf (mode : Config.KeyOor) (b : Byte) : Option KeyIdx :=
  if b.toNat ≤ 15 then some (b.setWidth 4)
  else match mode with
    | .notPressed => none
    | .lowNibble => some (b.setWidth 4)

/-- The key `key_of(V[x])` (R220, R221). -/
def keyOfReg (x : RegIdx) (s : State) : Option KeyIdx := keyOf s.cfg.keyOor (readV x s)

/-- Whether a key named by `key_of` is pressed; `none` is never pressed (R222). -/
def keyPressed (k : Option KeyIdx) (s : State) : Bool :=
  match k with
  | none => false
  | some k => readKey k s

/-- The keys in the order they are scanned, 0 to 15 (R223). -/
def scanOrder : List KeyIdx := [0, 1, 2, 3, 4, 5, 6, 7, 8, 9, 10, 11, 12, 13, 14, 15]

/-- The lowest key that is latched, if any is (R223). -/
def lowestKey (s : State) : Option KeyIdx := scanOrder.find? (fun k => readKey k s)

/-- The display column a sprite column falls on: `(cx + c) mod 64` (R201). -/
def pixelColumn (cx : Byte) (c : Nat) : Fin 64 := Fin.ofNat 64 (cx.toNat + c)

/-- The display row a sprite row falls on: `(cy + r) mod 32` (R201). -/
def pixelRow (cy : Byte) (r : Nat) : Fin 32 := Fin.ofNat 32 (cy.toNat + r)

/-- The pixel of a sprite row at a column offset: bit 7 is the leftmost, bit 0 the rightmost (R202). -/
def spritePixel (row : Byte) (c : Nat) : Bool := row.getLsbD (7 - c)

end Sys2Proof.Machine
end

