-- ==== Sys2Proof/Machine/ControlFlow.lean ====
section
/-! DEFINITION. Control flow: SYS, RET, JP, CALL, the skips, JP V0 (spec/40_control_flow.md R100 to R109). -/

namespace Sys2Proof.Machine

/-- `SYS nnn` (R101): under `SYS_MODE = illegal` the step raises `IllegalOpcode(w, PC)`, under `nop` only PC moves. -/
def execSys (nnn : Addr) (s : State) : Result :=
  match s.cfg.sysMode with
  | .illegal => raiseIllegalOpcode (encode (.sys nnn)) s
  | .nop => .next (advance s)

/-- `RET` (R102): pop the stack into PC; underflow wraps. -/
def execRet (s : State) : Result :=
  let popped := pop s
  .next (writePc (readStack popped.sp popped) popped)

/-- `JP nnn` (R103). -/
def execJp (nnn : Addr) (s : State) : Result := .next (writePc nnn s)

/-- `CALL nnn` (R104): push the address of the following word, then jump; overflow wraps. -/
def execCall (nnn : Addr) (s : State) : Result := .next (writePc nnn (push (nextAddr s) s))

/-- `SE Vx, kk` (R105). -/
def execSeByte (x : RegIdx) (kk : Byte) (s : State) : Result := .next (skipIf (readV x s == kk) s)

/-- `SNE Vx, kk` (R106). -/
def execSneByte (x : RegIdx) (kk : Byte) (s : State) : Result := .next (skipIf (readV x s != kk) s)

/-- `SE Vx, Vy` (R107). -/
def execSeReg (x y : RegIdx) (s : State) : Result := .next (skipIf (readV x s == readV y s) s)

/-- `SNE Vx, Vy` (R108). -/
def execSneReg (x y : RegIdx) (s : State) : Result := .next (skipIf (readV x s != readV y s) s)

/-- `JP V0, nnn` (R109): `(V0 + nnn) & 0xFFF`. -/
def execJpV0 (nnn : Addr) (s : State) : Result := .next (writePc (zext12 (readV 0#4 s) + nnn) s)

end Sys2Proof.Machine
end

