-- ==== Sys2Proof/Machine/Flags.lean ====
section
/-! DEFINITION. The values that instructions write to VF, each computed from operands bound before any write, and the two
orders of writing a result and its flag (spec/41_register_alu.md R130, R143). -/

namespace Sys2Proof.Machine

/-- A flag as the byte VF holds (R7, R23). -/
def flagByte (b : Bool) : Byte := if b then 1 else 0

/-- The carry out of bit 7 of a sum: the exact sum is above 255 (R132, R137, R143). -/
def carryOut (a b : Byte) : Bool := decide (255 < a.toNat + b.toNat)

/-- No borrow in `a - b`: the minuend is at least the subtrahend (R138, R140, R143). -/
def noBorrow (a b : Byte) : Bool := decide (b.toNat ≤ a.toNat)

/-- The bit a right shift by one moves out: bit 0 (R139). -/
def bitOutRight (a : Byte) : Bool := a.getLsbD 0

/-- The bit a left shift by one moves out: bit 7 (R141). -/
def bitOutLeft (a : Byte) : Bool := a.getLsbD 7

/-- The row order `Vx` then `VF`: with `x = 15` the flag is what stays (R130). -/
def writeResultThenFlag (x : RegIdx) (result : Byte) (flag : Bool) (s : State) : State :=
  writeV vf (flagByte flag) (writeV x result s)

/-- The row order `VF` then `Vx`: with `x = 15` the result is what stays (R130). -/
def writeFlagThenResult (x : RegIdx) (result : Byte) (flag : Bool) (s : State) : State :=
  writeV x result (writeV vf (flagByte flag) s)

end Sys2Proof.Machine
end

