-- ==== Sys2Proof/Machine/DisplayOps.lean ====
section
/-! DEFINITION. Display: CLS and DRW (spec/43_display.md R200 to R202). -/

namespace Sys2Proof.Machine

/-- `CLS` (R200): every cell 0, nothing else but PC. -/
def execCls (s : State) : Result := .next (advance (writeDisplay blankDisplay s))

/-- One sprite pixel XORed onto the display; the second component is `hit`, set when a cell goes from 1 to 0 (R201). -/
def drawPixel (on : Bool) (px : Fin 64) (py : Fin 32) (acc : Display × Bool) : Display × Bool :=
  if on then (acc.1.setCell px py (!acc.1.cell px py), acc.2 || acc.1.cell px py) else acc

/-- The first `n` pixels of a sprite row, from the left (R201, R202). -/
def drawRow (row : Byte) (cx : Byte) (py : Fin 32) : Nat → Display × Bool → Display × Bool
  | 0, acc => acc
  | c + 1, acc => drawPixel (spritePixel row c) (pixelColumn cx c) py (drawRow row cx py c acc)

/-- The first `n` rows of the sprite at `i0` in `source`'s memory, from the top (R201). -/
def drawRows (source : State) (i0 : Addr) (cx cy : Byte) : Nat → Display × Bool → Display × Bool
  | 0, acc => acc
  | r + 1, acc =>
    drawRow (readByte (dataAddr i0 r) source) cx (pixelRow cy r) 8 (drawRows source i0 cx cy r acc)

/-- `DRW Vx, Vy, n` (R201): coordinates and I are bound before VF is written; VF is reset first and ends as the collision flag. -/
def execDrw (x y : RegIdx) (n : Nibble) (s : State) : Result :=
  let drawn := drawRows s s.i (readV x s) (readV y s) n.toNat (s.disp, false)
  .next (advance (writeV vf (flagByte drawn.2) (writeDisplay drawn.1 (writeV vf 0 s))))

end Sys2Proof.Machine
end

