-- ==== Sys2Proof/Machine/IndexMemory.lean ====
section
/-! DEFINITION. Index register, font address, BCD, register store and load (spec/42_index_memory.md R169 to R175). -/

namespace Sys2Proof.Machine

/-- `LD I, nnn` (R170). -/
def execLdI (nnn : Addr) (s : State) : Result := .next (advance (writeI nnn s))

/-- `ADD I, Vx` (R171): modulo 4096, no flag. -/
def execAddI (x : RegIdx) (s : State) : Result := .next (advance (writeI (s.i + zext12 (readV x s)) s))

/-- `LD F, Vx` (R172). -/
def execLdFont (x : RegIdx) (s : State) : Result := .next (advance (writeI (glyphAddr (readV x s)) s))

/-- The hundreds digit of a byte (R173). -/
def bcdHundreds (b : Byte) : Byte := BitVec.ofNat 8 (b.toNat / 100)

/-- The tens digit of a byte (R173). -/
def bcdTens (b : Byte) : Byte := BitVec.ofNat 8 (b.toNat / 10 % 10)

/-- The ones digit of a byte (R173). -/
def bcdOnes (b : Byte) : Byte := BitVec.ofNat 8 (b.toNat % 10)

/-- `LD B, Vx` (R173): the three digits at I, I+1 and I+2; I stays. -/
def execLdBcd (x : RegIdx) (s : State) : Result :=
  let vx := readV x s
  .next (advance (writeByte (dataAddr s.i 2) (bcdOnes vx)
    (writeByte (dataAddr s.i 1) (bcdTens vx) (writeByte (dataAddr s.i 0) (bcdHundreds vx) s))))

/-- The first `n` registers of `regs`' state stored at `i0`, `i0 + 1`, ... in ascending order (R174). -/
def storeLoop (regs : State) (i0 : Addr) : Nat → State → State
  | 0, s => s
  | k + 1, s => writeByte (dataAddr i0 k) (readV (BitVec.ofNat 4 k) regs) (storeLoop regs i0 k s)

/-- `LD [I], Vx` (R174): V0 to Vx stored from I up; I stays. -/
def execStoreRegs (x : RegIdx) (s : State) : Result := .next (advance (storeLoop s s.i (x.toNat + 1) s))

/-- The first `n` registers loaded from `i0`, `i0 + 1`, ... of `source`'s memory in ascending order (R175). -/
def loadLoop (source : State) (i0 : Addr) : Nat → State → State
  | 0, s => s
  | k + 1, s => writeV (BitVec.ofNat 4 k) (readByte (dataAddr i0 k) source) (loadLoop source i0 k s)

/-- `LD Vx, [I]` (R175): V0 to Vx loaded from I up, every byte read before any register is written; I stays. -/
def execLoadRegs (x : RegIdx) (s : State) : Result := .next (advance (loadLoop s s.i (x.toNat + 1) s))

end Sys2Proof.Machine
end

