-- ==== Sys2Proof/Machine/KeysTimers.lean ====
section
/-! DEFINITION. Keys and timers: SKP, SKNP, LD Vx,K, LD Vx,DT, LD DT,Vx, LD ST,Vx (spec/44_keys_timers.md R220 to R226). -/

namespace Sys2Proof.Machine

/-- A key flag cleared, when `key_of` names a key (R220). -/
def consumeKey (k : Option KeyIdx) (s : State) : State :=
  match k with
  | none => s
  | some k => writeKey k false s

/-- `SKP Vx` (R220): if the key is pressed, clear its flag and skip. -/
def execSkp (x : RegIdx) (s : State) : Result :=
  let k := keyOfReg x s
  if keyPressed k s then .next (skipIf true (consumeKey k s)) else .next (advance s)

/-- `SKNP Vx` (R221): skip if the key is not pressed; the latch is never changed. -/
def execSknp (x : RegIdx) (s : State) : Result := .next (skipIf (!keyPressed (keyOfReg x s) s) s)

/-- `LD Vx, K` (R223): with no key latched nothing is written and PC stays; otherwise the lowest key is bound, and consumed when
`FX0A_CONSUME` is true. -/
def execLdVxKey (x : RegIdx) (s : State) : Result :=
  match lowestKey s with
  | none => .next s
  | some k =>
    let bound := writeV x (k.setWidth 8) s
    .next (advance (if s.cfg.fx0aConsume then writeKey k false bound else bound))

/-- `LD Vx, DT` (R224). -/
def execLdVxDt (x : RegIdx) (s : State) : Result := .next (advance (writeV x s.dt s))

/-- `LD DT, Vx` (R225). -/
def execLdDtVx (x : RegIdx) (s : State) : Result := .next (advance (writeDt (readV x s) s))

/-- `LD ST, Vx` (R226). -/
def execLdStVx (x : RegIdx) (s : State) : Result := .next (advance (writeSt (readV x s) s))

end Sys2Proof.Machine
end

