-- ==== Sys2Proof/Machine/RegisterAlu.lean ====
section
/-! DEFINITION. Register loads, arithmetic, logic, shifts and the random byte (spec/41_register_alu.md R130 to R143). -/

namespace Sys2Proof.Machine

/-- `LD Vx, kk` (R131). -/
def execLdByte (x : RegIdx) (kk : Byte) (s : State) : Result := .next (advance (writeV x kk s))

/-- `ADD Vx, kk` (R132): the sum modulo 256, then VF is the carry. -/
def execAddByte (x : RegIdx) (kk : Byte) (s : State) : Result :=
  let vx := readV x s
  .next (advance (writeResultThenFlag x (vx + kk) (carryOut vx kk) s))

/-- `LD Vx, Vy` (R133). -/
def execLdReg (x y : RegIdx) (s : State) : Result := .next (advance (writeV x (readV y s) s))

/-- `OR Vx, Vy` (R134). -/
def execOrReg (x y : RegIdx) (s : State) : Result := .next (advance (writeV x (readV x s ||| readV y s) s))

/-- `AND Vx, Vy` (R135). -/
def execAndReg (x y : RegIdx) (s : State) : Result := .next (advance (writeV x (readV x s &&& readV y s) s))

/-- `XOR Vx, Vy` (R136). -/
def execXorReg (x y : RegIdx) (s : State) : Result := .next (advance (writeV x (readV x s ^^^ readV y s) s))

/-- `ADD Vx, Vy` (R137): the sum modulo 256, then VF is the carry. -/
def execAddReg (x y : RegIdx) (s : State) : Result :=
  let vx := readV x s
  let vy := readV y s
  .next (advance (writeResultThenFlag x (vx + vy) (carryOut vx vy) s))

/-- `SUB Vx, Vy` (R138): the difference modulo 256, then VF is 1 for no borrow. -/
def execSubReg (x y : RegIdx) (s : State) : Result :=
  let vx := readV x s
  let vy := readV y s
  .next (advance (writeResultThenFlag x (vx - vy) (noBorrow vx vy) s))

/-- `SHR Vx` (R139): VF is the bit shifted out, then the shifted result. The encoded `y` is not read. -/
def execShr (x _y : RegIdx) (s : State) : Result :=
  let vx := readV x s
  .next (advance (writeFlagThenResult x (vx >>> 1) (bitOutRight vx) s))

/-- `SUBN Vx, Vy` (R140): VF is 1 for no borrow, then Vy minus Vx modulo 256. -/
def execSubnReg (x y : RegIdx) (s : State) : Result :=
  let vx := readV x s
  let vy := readV y s
  .next (advance (writeFlagThenResult x (vy - vx) (noBorrow vy vx) s))

/-- `SHL Vx` (R141): VF is the bit shifted out, then the shifted result modulo 256. The encoded `y` is not read. -/
def execShl (x _y : RegIdx) (s : State) : Result :=
  let vx := readV x s
  .next (advance (writeFlagThenResult x (vx <<< 1) (bitOutLeft vx) s))

/-- The effect of `RND Vx, kk` on a given random byte: `V[x] <- r & kk` (R142). -/
def randomEffect (r : Byte) (x : RegIdx) (kk : Byte) (s : State) : State := advance (writeV x (r &&& kk) s)

/-- `RND Vx, kk` (R142): the random byte is the free value at the draw counter, which moves on (log 1). -/
def execRnd (x : RegIdx) (kk : Byte) (s : State) : Result :=
  .next (countDraw (randomEffect (Config.randByte s.draws) x kk s))

end Sys2Proof.Machine
end

