-- ==== Sys2Proof/Machine/Step.lean ====
section
/-! DEFINITION. One step: fetch, decode, execute (spec/70_reset_and_hazards.md R284), and where an instruction is placed so
that the next step runs it. -/

namespace Sys2Proof.Machine

/-- `Step`: the word at PC is fetched afresh and decoded; an illegal word raises `IllegalOpcode`, any other runs its one
handler (R61, R284). The random byte that `Cxkk` reads is the free value of log 1. -/
def step (s : State) : Host.Outcome State Fault Refusal :=
  match decodeWord (fetchWord s) with
  | .ok i => exec i s
  | .illegal => raiseIllegalOpcode (fetchWord s) s

/-- A state whose next step runs the instruction of a word, numbered as spec/opcode_table.json numbers its bits: its two bytes
stand at PC and PC + 1 (R52). Nothing else changes; it stands for a `Load` at PC (log 7). -/
def State.withFetchWord (s : State) (nbits w : Nat) : State :=
  match tableBytes nbits w with
  | hi :: lo :: _ => writeByte s.pc hi (writeByte (s.pc + 1#12) lo s)
  | _ => s

end Sys2Proof.Machine
end

