-- ==== Sys2Proof/Machine/HostInterface.lean ====
section
/-! DEFINITION. The host interface: every operation the host may apply between steps, and any sequence of them
(spec/60_exceptions.md R252, R259, R260; spec/44_keys_timers.md R227 to R229; spec/70_reset_and_hazards.md R280). -/

namespace Sys2Proof.Machine

/-- `Step(rand_byte)` with the host's own draw: it differs from `step` only in where the byte of `Cxkk` comes from (R259,
R284; log 1). -/
def stepWith (r : Byte) (s : State) : Result :=
  match decodeWord (fetchWord s) with
  | .ok (.rnd x kk) => .next (randomEffect r x kk s)
  | .ok i => exec i s
  | .illegal => raiseIllegalOpcode (fetchWord s) s

/-- `Load(bytes, base)` (R252): the overflow check comes before any byte is written; only memory changes. -/
def load (bytes : List Byte) (base : Nat) (s : State) : Result :=
  if memSize < base + bytes.length then .fault (.loadOverflow base bytes.length)
  else .next { s with mem := Memory.writeList s.cfg.font base bytes s.mem }

/-- `Reset` (R280): every piece of state at its reset value. The parameters stay, and the draws go on (log 8). -/
def resetMachine (s : State) : State := { State.initial s.cfg with draws := s.draws }

/-- One timer a tick later: decremented toward zero (R227). -/
def tickDown (t : Byte) : Byte := if t = 0 then 0 else t - 1

/-- `TimerTick` (R227): both timers decrement toward zero, independently. -/
def timerTick (s : State) : State := writeSt (tickDown s.st) (writeDt (tickDown s.dt) s)

/-- `InputSet(k, b)` (R229). -/
def inputSet (k : KeyIdx) (b : Bool) (s : State) : State := writeKey k b s

/-- `DisplayRead` (R203, R259): the snapshot of all cells; it changes nothing. -/
def displayRead (s : State) : Display := s.disp

/-- One move of the host (R259). `DisplayRead` and the accessors change nothing. -/
inductive HostMove where
  | step (randByte : Byte)
  | load (bytes : List Byte) (base : Nat)
  | reset
  | timerTick
  | inputSet (k : KeyIdx) (b : Bool)
  | read
deriving DecidableEq, Repr

/-- The effect of one move (R259). -/
def applyMove (m : HostMove) (s : State) : Result :=
  match m with
  | .step r => stepWith r s
  | .load bytes base => load bytes base s
  | .reset => .next (resetMachine s)
  | .timerTick => .next (timerTick s)
  | .inputSet k b => .next (inputSet k b s)
  | .read => .next s

/-- The state after a move; an error leaves it as it was (R251, R252, R255). -/
def afterMove (m : HostMove) (s : State) : State :=
  match applyMove m s with
  | .next t => t
  | .fault _ => s
  | .refused _ => s

/-- Any interleaving of moves, each atomic, in the order of the list; after an error the host may go on (R255, R260). -/
def runMoves : List HostMove → State → State
  | [], s => s
  | m :: ms, s => runMoves ms (afterMove m s)

/-- The spec's cause code of an error: a label only (R251, R252; D21). -/
def causeCode : Fault → Nat
  | .illegalOpcode _ _ => 1
  | .loadOverflow _ _ => 2

/-- `TIMER_INTERVAL`, in seconds: a host parameter, 1/60 by default (R5, R228). -/
def timerIntervalDefault : Rat := 1 / 60

/-- `TickIfDue(now)` (R228): the host's pacing wrapper. `interval` and `lastTick` are the host's, in seconds (log 6); the answer
is the state and the new `last_tick`. -/
def tickIfDue (interval now lastTick : Rat) (s : State) : State × Rat :=
  if interval ≤ now - lastTick then (timerTick s, now) else (s, lastTick)

end Sys2Proof.Machine
end

