-- ==== Sys2Proof/Safety.lean ====
section
/-! DEFINITION. What counts as a safe run, and the words in which statements say what an instruction changes: the invariant,
the parts of the state, the spec's tables of who writes what, the pixels a sprite covers. Nothing here is used by `exec`. -/

namespace Sys2Proof.Machine

/-! ## Invariants -/

/-- The invariant: memory is in its canonical form. Every other range the spec gives (R21 to R33) is in the types. -/
def State.Inv (s : State) : Prop := Memory.wf s.cfg.font s.mem = true

/-- PC and every stack entry are even (R26). -/
def State.EvenPc (s : State) : Prop := s.pc.toNat % 2 = 0 ∧ ∀ j, (readStack j s).toNat % 2 = 0

/-- The jump or call target of an instruction is even, when it names one: `nnn`, and `V0 + nnn` for `JP V0` (R26). -/
def evenTarget (i : Instr) (s : State) : Prop :=
  match i with
  | .jp nnn => nnn.toNat % 2 = 0
  | .call nnn => nnn.toNat % 2 = 0
  | .jpV0 nnn => ((readV 0#4 s).toNat + nnn.toNat) % 2 = 0
  | _ => True

/-- A step is safe when it answers a next state: the only other way it can end is an error (R250). -/
def SafeStep (s : State) : Prop := ∃ t, step s = .next t

/-! ## Frames -/

/-- The parts of the state (R20), and the model's count of draws (log 1). -/
inductive Part where
  | regs | i | pc | sp | stack | dt | st | mem | disp | keys | draws
deriving DecidableEq, Repr

/-- Two states agree on a part: every register, entry, byte, cell or flag of it reads alike. -/
def agreeOn (p : Part) (s t : State) : Prop :=
  match p with
  | .regs => ∀ k, readV k t = readV k s
  | .i => t.i = s.i
  | .pc => t.pc = s.pc
  | .sp => t.sp = s.sp
  | .stack => ∀ j, readStack j t = readStack j s
  | .dt => t.dt = s.dt
  | .st => t.st = s.st
  | .mem => ∀ a, readByte a t = readByte a s
  | .disp => ∀ px py, readCell px py t = readCell px py s
  | .keys => ∀ k, readKey k t = readKey k s
  | .draws => t.draws = s.draws

/-- From `s` to `t` nothing changes outside the parts listed; the parameters never change. -/
def onlyChanges (parts : List Part) (s t : State) : Prop := t.cfg = s.cfg ∧ ∀ p, p ∉ parts → agreeOn p s t

/-- From `s` to `t` no general register changes but those listed. -/
def onlyRegs (rs : List RegIdx) (s t : State) : Prop := ∀ k, k ∉ rs → readV k t = readV k s

/-- PC moved to the following word: `(PC + 2) & 0xFFF` (R8). -/
def pcNext (s t : State) : Prop := t.pc.toNat = (s.pc.toNat + 2) % 4096

/-- PC moved two words on: `(PC + 4) & 0xFFF` (R8). -/
def pcSkip (s t : State) : Prop := t.pc.toNat = (s.pc.toNat + 4) % 4096

/-- The word whose first nibble is `n0` and whose address field is `nnn` (R72). -/
def wordNnn (n0 : Nat) (nnn : Addr) : OpWord := BitVec.ofNat 16 (n0 * 4096 + nnn.toNat)

/-- The word whose first nibble is `n0` and whose fields are `x` and `kk` (R72). -/
def wordXkk (n0 : Nat) (x : RegIdx) (kk : Byte) : OpWord := BitVec.ofNat 16 (n0 * 4096 + x.toNat * 256 + kk.toNat)

/-- The word whose first nibble is `n0` and whose other nibbles are `x`, `y` and `n` (R72). -/
def wordXyn (n0 : Nat) (x y n : Nibble) : OpWord :=
  BitVec.ofNat 16 (n0 * 4096 + x.toNat * 256 + y.toNat * 16 + n.toNat)

/-- A word, an instruction and a kind number belong together: the word is the instruction's encoding, it decodes to the
instruction, and the decoder gives the kind (R73, R83). -/
def encodedAs (w : OpWord) (i : Instr) (kind : Nat) : Prop := encode i = w ∧ decodeWord w = .ok i ∧ kindOf i = kind

/-! ## Who writes what -/

/-- The parts an instruction may write, from the spec's tables and prose: R22 and R23 (registers), R24 (`I`), R27 and R28 (stack),
R29 (timers), R32 (display), R33 (latch), R54 (memory). -/
def writesParts : Instr → List Part
  | .sys _ => [.pc]
  | .cls => [.disp, .pc]
  | .ret => [.sp, .pc]
  | .jp _ | .jpV0 _ => [.pc]
  | .call _ => [.stack, .sp, .pc]
  | .seByte _ _ | .sneByte _ _ | .seReg _ _ | .sneReg _ _ | .sknp _ => [.pc]
  | .ldByte _ _ | .addByte _ _ | .ldReg _ _ | .orReg _ _ | .andReg _ _ | .xorReg _ _ => [.regs, .pc]
  | .addReg _ _ | .subReg _ _ | .shr _ _ | .subnReg _ _ | .shl _ _ => [.regs, .pc]
  | .rnd _ _ => [.regs, .pc, .draws]
  | .ldI _ | .addI _ | .ldFont _ => [.i, .pc]
  | .drw _ _ _ => [.regs, .disp, .pc]
  | .skp _ => [.keys, .pc]
  | .ldVxDt _ | .loadRegs _ => [.regs, .pc]
  | .ldVxKey _ => [.regs, .keys, .pc]
  | .ldDtVx _ => [.dt, .pc]
  | .ldStVx _ => [.st, .pc]
  | .ldBcd _ | .storeRegs _ => [.mem, .pc]

/-- Whether an instruction may write a general register: the "written by" column of R22, and R23 for VF. -/
def mayWriteReg (i : Instr) (k : RegIdx) : Bool :=
  match i with
  | .ldByte x _ | .rnd x _ | .ldVxDt x | .ldVxKey x => k == x
  | .ldReg x _ | .orReg x _ | .andReg x _ | .xorReg x _ => k == x
  | .addByte x _ | .addReg x _ | .subReg x _ | .shr x _ | .subnReg x _ | .shl x _ => k == x || k == vf
  | .drw _ _ _ => k == vf
  | .loadRegs x => decide (k.toNat ≤ x.toNat)
  | _ => false

/-- Whether an instruction stores to a byte of memory: `Fx33` at I to I+2, `Fx55` at I to I+x, modulo 4096 (R54, R169). -/
def storesTo (i : Instr) (s : State) (a : Addr) : Prop :=
  match i with
  | .ldBcd _ => ∃ k, k ≤ 2 ∧ a = dataAddr s.i k
  | .storeRegs x => ∃ k, k ≤ x.toNat ∧ a = dataAddr s.i k
  | _ => False

/-- The instructions through which input changes and timer ticks reach a program (R257). -/
def readsInputs : Instr → Bool
  | .skp _ | .sknp _ | .ldVxKey _ | .ldVxDt _ => true
  | _ => false

/-- Two outcomes are the same but for the latch and the timers. -/
def sameButInputs : Result → Result → Prop
  | .next t, .next t' => onlyChanges [.keys, .dt, .st] t t'
  | .fault f, .fault f' => f = f'
  | .refused r, .refused r' => r = r'
  | _, _ => False

/-! ## Sprites -/

/-- The sprite of `n` rows at `s.i`, placed at `(cx, cy)`, has a 1 bit on the cell `(px, py)`: some row `r` and column `c` of it
fall there modulo 64 and 32, and bit `7 - c` of the row's byte is 1 (R201, R202). -/
def spriteCovers (s : State) (cx cy : Byte) (n : Nat) (px : Fin 64) (py : Fin 32) : Prop :=
  ∃ r c, r < n ∧ c < 8 ∧ px.val = (cx.toNat + c) % 64 ∧ py.val = (cy.toNat + r) % 32 ∧
    (readByte (dataAddr s.i r) s).toNat.testBit (7 - c) = true

end Sys2Proof.Machine
end

