-- ==== Sys2Proof/Certificates/Slice0/Obligations.lean ====
section
/-! DEFINITION. The statements for the provers, from the numbered rules of spec/. `exec i s = .next t` says that the instruction
completes. A frame is said by `onlyChanges` (the parts that may change) with `onlyRegs` (the registers that may change) and, for a
store, the bytes stored to. Rules marked as decisions of the spec itself (spec/92_eei_decisions.md) are followed as it states them. -/

open Sys2Proof Sys2Proof.Machine

/-! ## Encoding -/

/-- R72, R73, R75: every well-formed instruction, with every operand value, is what its own word and its own two bytes decode
to. -/
def Obligations.DecodeOfEncodeIsTheInstruction : Prop :=
  ∀ (i : Instr) (rest : List Byte), i.wellFormed = true →
    decodeWord (encode i) = .ok i ∧ decodeBytes (encodeBytes i ++ rest) = .ok i rest

/-- R72, R73: a word that decodes to an instruction is the encoding of that instruction, which is well-formed. -/
def Obligations.EncodeOfDecodeIsTheWord : Prop :=
  ∀ (w : OpWord) (i : Instr), decodeWord w = .ok i → i.wellFormed = true ∧ encode i = w

/-- R74, R75: the decoder is the most-specific-match rule over the pattern table: it answers the kind of the one most specific
matching pattern, and `Illegal` when there is none or a tie. -/
def Obligations.DecoderIsTheMostSpecificMatchRule : Prop :=
  ∀ w : OpWord, (∀ i, decodeWord w = .ok i → resolveKind w = some (kindOf i)) ∧
    (decodeWord w = .illegal → resolveKind w = none)

/-- R75, an inference the spec marks as its own ("`|B| > 1` never occurs"): a word fails to resolve only when no pattern matches. -/
def Obligations.NoWordHasTwoBestPatterns : Prop :=
  ∀ w : OpWord, resolveKind w = none ↔ ∀ p ∈ patterns, p.matchesWord w = false

/-- R79, an inference the spec marks as its own: the words that decode to `Illegal` are exactly those of its table (the counts of
the table are not stated here). -/
def Obligations.IllegalWordsAreThoseOfTheTable : Prop :=
  ∀ w : OpWord, decodeWord w = .illegal ↔
    (w.toNat / 4096 = 0x5 ∧ w.toNat % 16 ≠ 0) ∨
    (w.toNat / 4096 = 0x8 ∧ w.toNat % 16 ∈ [0x8, 0x9, 0xA, 0xB, 0xC, 0xD, 0xF]) ∨
    (w.toNat / 4096 = 0x9 ∧ w.toNat % 16 ≠ 0) ∨
    (w.toNat / 4096 = 0xE ∧ w.toNat % 256 ∉ [0x9E, 0xA1]) ∨
    (w.toNat / 4096 = 0xF ∧ w.toNat % 256 ∉ [0x07, 0x0A, 0x15, 0x18, 0x1E, 0x29, 0x33, 0x55, 0x65])

/-- R71, R72, R78: for every word the decoder presents the four nibbles and all operand fields, `valid` says whether it decodes,
and `kind` is the kind of R83, or 0 when it does not. -/
def Obligations.DecoderPortsPresentEveryField : Prop :=
  ∀ w : OpWord,
    (decoderPorts w).n0.toNat = w.toNat / 4096 ∧ (decoderPorts w).n1.toNat = w.toNat / 256 % 16 ∧
    (decoderPorts w).n2.toNat = w.toNat / 16 % 16 ∧ (decoderPorts w).n3.toNat = w.toNat % 16 ∧
    (decoderPorts w).x.toNat = w.toNat / 256 % 16 ∧ (decoderPorts w).y.toNat = w.toNat / 16 % 16 ∧
    (decoderPorts w).n.toNat = w.toNat % 16 ∧ (decoderPorts w).kk.toNat = w.toNat % 256 ∧
    (decoderPorts w).nnn.toNat = w.toNat % 4096 ∧
    (∀ i, decodeWord w = .ok i → (decoderPorts w).valid = true ∧ (decoderPorts w).kind.toNat = kindOf i) ∧
    (decodeWord w = .illegal → (decoderPorts w).valid = false ∧ (decoderPorts w).kind = 0)

/-- R73, R75, R79: words written out from the pattern table, one or more per family, and words the table does not have. -/
def Obligations.WrittenOutWordsDecodeRight : Prop :=
  decodeWord 0x0123 = .ok (.sys 0x123) ∧ decodeWord 0x00E0 = .ok .cls ∧ decodeWord 0x00EE = .ok .ret ∧
  decodeWord 0x00E1 = .ok (.sys 0x0E1) ∧ decodeWord 0x2905 = .ok (.call 0x905) ∧ decodeWord 0x8AB5 = .ok (.subReg 0xA 0xB) ∧
  decodeWord 0x7C2D = .ok (.addByte 0xC 0x2D) ∧ decodeWord 0xA300 = .ok (.ldI 0x300) ∧
  decodeWord 0xD12F = .ok (.drw 0x1 0x2 0xF) ∧ decodeWord 0xE79E = .ok (.skp 0x7) ∧ decodeWord 0xF515 = .ok (.ldDtVx 0x5) ∧
  decodeWord 0xF265 = .ok (.loadRegs 0x2) ∧ decodeWord 0x5231 = .illegal ∧ decodeWord 0x800F = .illegal ∧
  decodeWord 0xE00E = .illegal ∧ decodeWord 0xF0F7 = .illegal

/-! ## The step, its errors, and fetch -/

/-- R52: the fetched word is the byte at PC times 256 plus the byte at PC + 1 modulo 4096, at every PC, odd ones and 0xFFF
included. The order of the bytes is the spec's own decision (D2). -/
def Obligations.FetchPutsTheByteAtPcFirst : Prop :=
  ∀ s : State, (fetchWord s).toNat =
    (readByte s.pc s).toNat * 256 + (readByte (BitVec.ofNat 12 ((s.pc.toNat + 1) % 4096)) s).toNat

/-- R284, R251: a step runs the instruction that the two bytes at PC decode to, with nothing around it; where they are an illegal
word, the step ends with `IllegalOpcode` of that word and PC. -/
def Obligations.StepRunsTheDecodedInstruction : Prop :=
  ∀ s : State,
    (∀ i, decodeBytes [readByte s.pc s, readByte (s.pc + 1#12) s] = .ok i [] → step s = exec i s) ∧
    (∀ w, decodeBytes [readByte s.pc s, readByte (s.pc + 1#12) s] = .error (.illegalWord w) →
      step s = .fault (.illegalOpcode w s.pc))

/-- R250: the host can meet exactly two errors. A step fails only by a decode failure or by `SYS` under `SYS_MODE = illegal`, with
the fetched word and PC; `Load` fails only when it would pass the end of memory; no other move fails, and none is refused. -/
def Obligations.OnlyTwoErrorsAndTheirCauses : Prop :=
  (∀ (m : HostMove) (s : State) (f : Fault), applyMove m s = .fault f →
    (∃ r, m = .step r ∧ f = .illegalOpcode (fetchWord s) s.pc ∧
      (decodeWord (fetchWord s) = .illegal ∨
        (s.cfg.sysMode = .illegal ∧ ∃ nnn, decodeWord (fetchWord s) = .ok (.sys nnn)))) ∨
    (∃ bytes base, m = .load bytes base ∧ f = .loadOverflow base bytes.length ∧ 4096 < base + bytes.length)) ∧
  (∀ (m : HostMove) (s : State) (r : Refusal), applyMove m s ≠ .refused r)

/-- R250, R253: every instruction completes in every state, `SYS` under `SYS_MODE = illegal` apart. -/
def Obligations.EveryInstructionCompletes : Prop :=
  ∀ (i : Instr) (s : State), (s.cfg.sysMode = .nop ∨ ∀ nnn, i ≠ .sys nnn) → ∃ t, exec i s = .next t

/-- R250, R251, R101: a step answers a next state exactly when the fetched word decodes and is not `SYS` under
`SYS_MODE = illegal`. -/
def Obligations.StepIsSafeExactlyWhenItDecodes : Prop :=
  ∀ s : State, SafeStep s ↔
    ∃ i, decodeWord (fetchWord s) = .ok i ∧ (s.cfg.sysMode = .nop ∨ ∀ nnn, i ≠ .sys nnn)

/-- R255, an inference the spec marks as its own: after `IllegalOpcode` the state is unchanged, and a further step, with any
random byte, reports the same error. -/
def Obligations.IllegalOpcodeRepeats : Prop :=
  ∀ (r r' : Byte) (s : State) (f : Fault), applyMove (.step r) s = .fault f →
    afterMove (.step r) s = s ∧ applyMove (.step r') (afterMove (.step r) s) = .fault f

/-- R264: a jump to itself leaves the whole state unchanged at every later step. -/
def Obligations.SelfJumpLeavesTheState : Prop :=
  ∀ s : State, fetchWord s = wordNnn 0x1 s.pc → step s = .next s

/-! ## Control flow -/

/-- R101: `SYS nnn` raises `IllegalOpcode(w, PC)` under `SYS_MODE = illegal` and only moves PC to the next word under `nop`. -/
def Obligations.SysRaisesOrAdvances : Prop :=
  ∀ (nnn : Addr) (s : State), nnn ≠ 0x0E0#12 → nnn ≠ 0x0EE#12 →
    encodedAs (wordNnn 0x0 nnn) (.sys nnn) 0 ∧
    (s.cfg.sysMode = .illegal → exec (.sys nnn) s = .fault (.illegalOpcode (wordNnn 0x0 nnn) s.pc)) ∧
    (s.cfg.sysMode = .nop → ∃ t, exec (.sys nnn) s = .next t ∧ pcNext s t ∧ onlyChanges [.pc] s t)

/-- R102: `RET` takes SP down by one modulo 16 and loads PC from the entry there, which keeps its value. The order of the pop is
the spec's own decision (D4). -/
def Obligations.RetPopsIntoPc : Prop :=
  ∀ s : State, encodedAs 0x00EE#16 .ret 2 ∧
    ∃ t, exec .ret s = .next t ∧ t.sp.toNat = (s.sp.toNat + 15) % 16 ∧ t.pc = readStack t.sp s ∧ onlyChanges [.sp, .pc] s t

/-- R103: `JP nnn` loads PC with `nnn`, odd or even, and changes nothing else. -/
def Obligations.JpLoadsPc : Prop :=
  ∀ (nnn : Addr) (s : State), encodedAs (wordNnn 0x1 nnn) (.jp nnn) 3 ∧
    ∃ t, exec (.jp nnn) s = .next t ∧ t.pc = nnn ∧ onlyChanges [.pc] s t

/-- R104: `CALL nnn` stores the address of the following word in the entry at SP, takes SP up by one modulo 16, and loads PC. The
order of the push is the spec's own decision (D4). -/
def Obligations.CallPushesReturnAddress : Prop :=
  ∀ (nnn : Addr) (s : State), encodedAs (wordNnn 0x2 nnn) (.call nnn) 4 ∧
    ∃ t, exec (.call nnn) s = .next t ∧ (readStack s.sp t).toNat = (s.pc.toNat + 2) % 4096 ∧
      (∀ j, j ≠ s.sp → readStack j t = readStack j s) ∧ t.sp.toNat = (s.sp.toNat + 1) % 16 ∧ t.pc = nnn ∧
      onlyChanges [.stack, .sp, .pc] s t

/-- R105, R106: `SE Vx, kk` skips the next word when V[x] is `kk`, `SNE Vx, kk` when it is not. -/
def Obligations.ByteSkipsCompareVxWithKk : Prop :=
  ∀ (x : RegIdx) (kk : Byte) (s : State),
    encodedAs (wordXkk 0x3 x kk) (.seByte x kk) 5 ∧ encodedAs (wordXkk 0x4 x kk) (.sneByte x kk) 6 ∧
    (∃ t, exec (.seByte x kk) s = .next t ∧ (readV x s = kk → pcSkip s t) ∧ (readV x s ≠ kk → pcNext s t) ∧
      onlyChanges [.pc] s t) ∧
    (∃ t, exec (.sneByte x kk) s = .next t ∧ (readV x s ≠ kk → pcSkip s t) ∧ (readV x s = kk → pcNext s t) ∧
      onlyChanges [.pc] s t)

/-- R107, R108: `SE Vx, Vy` skips the next word when the registers are equal, `SNE Vx, Vy` when they differ. -/
def Obligations.RegisterSkipsCompareVxWithVy : Prop :=
  ∀ (x y : RegIdx) (s : State),
    encodedAs (wordXyn 0x5 x y 0x0) (.seReg x y) 7 ∧ encodedAs (wordXyn 0x9 x y 0x0) (.sneReg x y) 19 ∧
    (∃ t, exec (.seReg x y) s = .next t ∧ (readV x s = readV y s → pcSkip s t) ∧ (readV x s ≠ readV y s → pcNext s t) ∧
      onlyChanges [.pc] s t) ∧
    (∃ t, exec (.sneReg x y) s = .next t ∧ (readV x s ≠ readV y s → pcSkip s t) ∧ (readV x s = readV y s → pcNext s t) ∧
      onlyChanges [.pc] s t)

/-- R109: `JP V0, nnn` loads PC with the sum of V0 and `nnn`, modulo 4096. -/
def Obligations.JpV0AddsV0 : Prop :=
  ∀ (nnn : Addr) (s : State), encodedAs (wordNnn 0xB nnn) (.jpV0 nnn) 21 ∧
    ∃ t, exec (.jpV0 nnn) s = .next t ∧ t.pc.toNat = ((readV 0x0#4 s).toNat + nnn.toNat) % 4096 ∧ onlyChanges [.pc] s t

/-- The call and return round trip the spec quotes (test vector S5; R102, R104): from any SP, a `CALL` and then a `RET` come back
to the word after the call with SP as it was. -/
def Obligations.CallThenRetComesBack : Prop :=
  ∀ (nnn : Addr) (s : State), ∃ t u, exec (.call nnn) s = .next t ∧ exec .ret t = .next u ∧
    pcNext s u ∧ u.sp = s.sp ∧ onlyChanges [.pc, .stack] s u

/-! ## Registers and ALU -/

/-- R131, R133: `LD Vx, kk` and `LD Vx, Vy` write V[x] and nothing else but PC. -/
def Obligations.RegisterLoadsWriteVx : Prop :=
  ∀ (x y : RegIdx) (kk : Byte) (s : State),
    encodedAs (wordXkk 0x6 x kk) (.ldByte x kk) 8 ∧ encodedAs (wordXyn 0x8 x y 0x0) (.ldReg x y) 10 ∧
    (∃ t, exec (.ldByte x kk) s = .next t ∧ readV x t = kk ∧ onlyRegs [x] s t ∧ pcNext s t ∧ onlyChanges [.regs, .pc] s t) ∧
    (∃ t, exec (.ldReg x y) s = .next t ∧ readV x t = readV y s ∧ onlyRegs [x] s t ∧ pcNext s t ∧
      onlyChanges [.regs, .pc] s t)

/-- R134, R135, R136: `OR`, `AND` and `XOR` write V[x] bit by bit and leave VF alone unless it is V[x]. -/
def Obligations.LogicWritesVxBitByBit : Prop :=
  ∀ (x y : RegIdx) (s : State),
    encodedAs (wordXyn 0x8 x y 0x1) (.orReg x y) 11 ∧ encodedAs (wordXyn 0x8 x y 0x2) (.andReg x y) 12 ∧
    encodedAs (wordXyn 0x8 x y 0x3) (.xorReg x y) 13 ∧
    (∃ t, exec (.orReg x y) s = .next t ∧
      (∀ b < 8, (readV x t).toNat.testBit b = ((readV x s).toNat.testBit b || (readV y s).toNat.testBit b)) ∧
      onlyRegs [x] s t ∧ pcNext s t ∧ onlyChanges [.regs, .pc] s t) ∧
    (∃ t, exec (.andReg x y) s = .next t ∧
      (∀ b < 8, (readV x t).toNat.testBit b = ((readV x s).toNat.testBit b && (readV y s).toNat.testBit b)) ∧
      onlyRegs [x] s t ∧ pcNext s t ∧ onlyChanges [.regs, .pc] s t) ∧
    (∃ t, exec (.xorReg x y) s = .next t ∧
      (∀ b < 8, (readV x t).toNat.testBit b = ((readV x s).toNat.testBit b ^^ (readV y s).toNat.testBit b)) ∧
      onlyRegs [x] s t ∧ pcNext s t ∧ onlyChanges [.regs, .pc] s t)

/-- R132: `ADD Vx, kk` writes the sum modulo 256, then the carry to VF, which is always written; with `x = 15` VF is the carry
(the spec's own decisions D8 and D25). -/
def Obligations.AddByteWritesSumThenCarry : Prop :=
  ∀ (x : RegIdx) (kk : Byte) (s : State), encodedAs (wordXkk 0x7 x kk) (.addByte x kk) 9 ∧
    ∃ t, exec (.addByte x kk) s = .next t ∧
      (x ≠ vf → (readV x t).toNat = ((readV x s).toNat + kk.toNat) % 256) ∧
      (readV vf t).toNat = (if 255 < (readV x s).toNat + kk.toNat then 1 else 0) ∧
      onlyRegs [x, vf] s t ∧ pcNext s t ∧ onlyChanges [.regs, .pc] s t

/-- R137: `ADD Vx, Vy` writes the sum modulo 256, then the carry to VF; with `x = 15` VF is the carry, and with `y = 15` the old
VF is added (the spec's own decision D8). -/
def Obligations.AddRegWritesSumThenCarry : Prop :=
  ∀ (x y : RegIdx) (s : State), encodedAs (wordXyn 0x8 x y 0x4) (.addReg x y) 14 ∧
    ∃ t, exec (.addReg x y) s = .next t ∧
      (x ≠ vf → (readV x t).toNat = ((readV x s).toNat + (readV y s).toNat) % 256) ∧
      (readV vf t).toNat = (if 255 < (readV x s).toNat + (readV y s).toNat then 1 else 0) ∧
      onlyRegs [x, vf] s t ∧ pcNext s t ∧ onlyChanges [.regs, .pc] s t

/-- R138: `SUB Vx, Vy` writes Vx minus Vy modulo 256, then the no-borrow flag to VF; with `x = 15` VF is the flag (the spec's own
decision D8). -/
def Obligations.SubWritesDifferenceThenNoBorrow : Prop :=
  ∀ (x y : RegIdx) (s : State), encodedAs (wordXyn 0x8 x y 0x5) (.subReg x y) 15 ∧
    ∃ t, exec (.subReg x y) s = .next t ∧
      (x ≠ vf → (readV x t).toNat = ((readV x s).toNat + 256 - (readV y s).toNat) % 256) ∧
      (readV vf t).toNat = (if (readV y s).toNat ≤ (readV x s).toNat then 1 else 0) ∧
      onlyRegs [x, vf] s t ∧ pcNext s t ∧ onlyChanges [.regs, .pc] s t

/-- R140: `SUBN Vx, Vy` writes the no-borrow flag to VF, then Vy minus Vx modulo 256; with `x = 15` VF is the difference (the
spec's own decision D8). -/
def Obligations.SubnWritesNoBorrowThenDifference : Prop :=
  ∀ (x y : RegIdx) (s : State), encodedAs (wordXyn 0x8 x y 0x7) (.subnReg x y) 17 ∧
    ∃ t, exec (.subnReg x y) s = .next t ∧
      (readV x t).toNat = ((readV y s).toNat + 256 - (readV x s).toNat) % 256 ∧
      (x ≠ vf → (readV vf t).toNat = if (readV x s).toNat ≤ (readV y s).toNat then 1 else 0) ∧
      onlyRegs [x, vf] s t ∧ pcNext s t ∧ onlyChanges [.regs, .pc] s t

/-- R139, R141: `SHR` writes the old bit 0 to VF and then half of Vx; `SHL` writes the old bit 7 to VF and then twice Vx modulo 256;
with `x = 15` the result is what stays (the spec's own decision D8). V[y] has no part in it. -/
def Obligations.ShiftsWriteBitOutThenResult : Prop :=
  ∀ (x y : RegIdx) (s : State),
    encodedAs (wordXyn 0x8 x y 0x6) (.shr x y) 16 ∧ encodedAs (wordXyn 0x8 x y 0xE) (.shl x y) 18 ∧
    (∃ t, exec (.shr x y) s = .next t ∧ (readV x t).toNat = (readV x s).toNat / 2 ∧
      (x ≠ vf → (readV vf t).toNat = (readV x s).toNat % 2) ∧
      onlyRegs [x, vf] s t ∧ pcNext s t ∧ onlyChanges [.regs, .pc] s t) ∧
    (∃ t, exec (.shl x y) s = .next t ∧ (readV x t).toNat = 2 * (readV x s).toNat % 256 ∧
      (x ≠ vf → (readV vf t).toNat = (readV x s).toNat / 128) ∧
      onlyRegs [x, vf] s t ∧ pcNext s t ∧ onlyChanges [.regs, .pc] s t)

/-- R142: a step on `Cxkk`, whatever random byte the host draws, writes that byte under the mask `kk` to V[x] and nothing else
but PC. -/
def Obligations.RndMasksTheHostsDraw : Prop :=
  ∀ (r : Byte) (x : RegIdx) (kk : Byte) (s : State), encodedAs (wordXkk 0xC x kk) (.rnd x kk) 22 ∧
    (fetchWord s = wordXkk 0xC x kk →
      ∃ t, stepWith r s = .next t ∧
        (∀ b < 8, (readV x t).toNat.testBit b = (r.toNat.testBit b && kk.toNat.testBit b)) ∧
        onlyRegs [x] s t ∧ pcNext s t ∧ onlyChanges [.regs, .pc] s t)

/-- The model's form of R142 (log 1, a DESIGN CHOICE): `exec` takes the random byte from the free value at the draw counter, and
counts the draw. It holds for every value of the counter and whatever the free value is; the bits that `kk` clears are 0. -/
def Obligations.RndTakesTheFreeByte : Prop :=
  ∀ (x : RegIdx) (kk : Byte) (s : State),
    ∃ t, exec (.rnd x kk) s = .next t ∧ readV x t = Config.randByte s.draws &&& kk ∧
      (∀ b < 8, kk.toNat.testBit b = false → (readV x t).toNat.testBit b = false) ∧ t.draws = s.draws + 1 ∧
      onlyRegs [x] s t ∧ pcNext s t ∧ onlyChanges [.regs, .pc, .draws] s t

/-- R284 and log 1: a step with a draw of the host is the model's step, but on `Cxkk`; there they differ only in the count of
draws when the host's draw is the model's. -/
def Obligations.StepWithADrawIsTheStep : Prop :=
  ∀ (r : Byte) (s : State),
    ((∀ x kk, decodeWord (fetchWord s) ≠ .ok (.rnd x kk)) → stepWith r s = step s) ∧
    (∀ x kk, decodeWord (fetchWord s) = .ok (.rnd x kk) → r = Config.randByte s.draws →
      ∃ t, step s = .next t ∧ stepWith r s = .next { t with draws := s.draws })

/-! ## Index register and memory -/

/-- R169: the address of byte `k` is `(I + k)` modulo 4096, and the addresses of one instruction are distinct (R56). -/
def Obligations.DataAddressesWrapAndAreDistinct : Prop :=
  ∀ (i0 : Addr) (j k : Nat), (dataAddr i0 k).toNat = (i0.toNat + k) % 4096 ∧
    (j < 16 → k < 16 → dataAddr i0 j = dataAddr i0 k → j = k)

/-- R170, R171, R172: `LD I, nnn`, `ADD I, Vx` (modulo 4096, VF untouched) and `LD F, Vx` (five times Vx, with no reduction of Vx:
the spec's own decision D14) write I and nothing else but PC. -/
def Obligations.IndexLoadsWriteI : Prop :=
  ∀ (nnn : Addr) (x : RegIdx) (s : State),
    encodedAs (wordNnn 0xA nnn) (.ldI nnn) 20 ∧ encodedAs (wordXkk 0xF x 0x1E) (.addI x) 30 ∧
    encodedAs (wordXkk 0xF x 0x29) (.ldFont x) 31 ∧
    (∃ t, exec (.ldI nnn) s = .next t ∧ t.i = nnn ∧ pcNext s t ∧ onlyChanges [.i, .pc] s t) ∧
    (∃ t, exec (.addI x) s = .next t ∧ t.i.toNat = (s.i.toNat + (readV x s).toNat) % 4096 ∧ pcNext s t ∧
      onlyChanges [.i, .pc] s t) ∧
    (∃ t, exec (.ldFont x) s = .next t ∧ t.i.toNat = 5 * (readV x s).toNat ∧ pcNext s t ∧ onlyChanges [.i, .pc] s t)

/-- R173: `LD B, Vx` stores the hundreds, tens and ones of Vx at I, I+1 and I+2 modulo 4096; no other byte changes, and I stays
(the spec's own decision D15). -/
def Obligations.BcdStoresThreeDigits : Prop :=
  ∀ (x : RegIdx) (s : State), encodedAs (wordXkk 0xF x 0x33) (.ldBcd x) 32 ∧
    ∃ t, exec (.ldBcd x) s = .next t ∧
      (readByte (dataAddr s.i 0) t).toNat = (readV x s).toNat / 100 ∧
      (readByte (dataAddr s.i 1) t).toNat = (readV x s).toNat / 10 % 10 ∧
      (readByte (dataAddr s.i 2) t).toNat = (readV x s).toNat % 10 ∧
      (∀ a, a ≠ dataAddr s.i 0 → a ≠ dataAddr s.i 1 → a ≠ dataAddr s.i 2 → readByte a t = readByte a s) ∧
      pcNext s t ∧ onlyChanges [.mem, .pc] s t

/-- R174: `LD [I], Vx` stores V0 to Vx at I, I+1, ... modulo 4096; no other byte changes, and I stays (the spec's own decision
D15). -/
def Obligations.StoreRegsStoresV0ToVx : Prop :=
  ∀ (x : RegIdx) (s : State), encodedAs (wordXkk 0xF x 0x55) (.storeRegs x) 33 ∧
    ∃ t, exec (.storeRegs x) s = .next t ∧
      (∀ k : RegIdx, k.toNat ≤ x.toNat → readByte (dataAddr s.i k.toNat) t = readV k s) ∧
      (∀ a, (∀ k : RegIdx, k.toNat ≤ x.toNat → a ≠ dataAddr s.i k.toNat) → readByte a t = readByte a s) ∧
      pcNext s t ∧ onlyChanges [.mem, .pc] s t

/-- R175: `LD Vx, [I]` loads V0 to Vx from I, I+1, ... modulo 4096; the registers above Vx, memory and I stay (the spec's own
decision D15). -/
def Obligations.LoadRegsLoadsV0ToVx : Prop :=
  ∀ (x : RegIdx) (s : State), encodedAs (wordXkk 0xF x 0x65) (.loadRegs x) 34 ∧
    ∃ t, exec (.loadRegs x) s = .next t ∧
      (∀ k : RegIdx, k.toNat ≤ x.toNat → readV k t = readByte (dataAddr s.i k.toNat) s) ∧
      (∀ k : RegIdx, x.toNat < k.toNat → readV k t = readV k s) ∧
      pcNext s t ∧ onlyChanges [.regs, .pc] s t

/-- The store and load round trip the spec quotes in its corrected form (test vector S8; R174, R175): whatever the registers
become in between, loading from the same memory at the same I brings V0 to Vx back. -/
def Obligations.StoreThenLoadBringsBack : Prop :=
  ∀ (x : RegIdx) (s : State), ∃ t, exec (.storeRegs x) s = .next t ∧
    ∀ u : State, u.i = t.i → (∀ a, readByte a u = readByte a t) →
      ∃ w, exec (.loadRegs x) u = .next w ∧ ∀ k : RegIdx, k.toNat ≤ x.toNat → readV k w = readV k s

/-- R61: code is fetched as it was last stored: an `Fx55` that stores V0 and V1 over the following word makes the next step fetch
exactly them. -/
def Obligations.StoredWordIsFetchedNext : Prop :=
  ∀ (x : RegIdx) (s : State), 1 ≤ x.toNat → s.i.toNat = (s.pc.toNat + 2) % 4096 →
    ∃ t, exec (.storeRegs x) s = .next t ∧
      (fetchWord t).toNat = (readV 0x0#4 s).toNat * 256 + (readV 0x1#4 s).toNat

/-! ## Display -/

/-- R200: `CLS` makes every cell 0 and changes nothing else but PC. -/
def Obligations.ClsClearsEveryCell : Prop :=
  ∀ s : State, encodedAs 0x00E0#16 .cls 1 ∧
    ∃ t, exec .cls s = .next t ∧ (∀ px py, readCell px py t = false) ∧ pcNext s t ∧ onlyChanges [.disp, .pc] s t

/-- R201: `DRW Vx, Vy, n` flips exactly the cells that the sprite's 1 bits fall on, modulo 64 and 32, with the coordinates as they
were before VF is written; VF is 1 if one of those cells was 1 and 0 otherwise, and no other register, I or memory changes. The
order of the bits in a sprite row (R202), `n = 0` and `x` or `y` = 15 are the spec's own decisions (D8, D11, D12). -/
def Obligations.DrwFlipsTheSpritesCells : Prop :=
  ∀ (x y : RegIdx) (n : Nibble) (s : State), encodedAs (wordXyn 0xD x y n) (.drw x y n) 23 ∧
    ∃ t, exec (.drw x y n) s = .next t ∧
      (∀ px py, spriteCovers s (readV x s) (readV y s) n.toNat px py → readCell px py t = !readCell px py s) ∧
      (∀ px py, ¬ spriteCovers s (readV x s) (readV y s) n.toNat px py → readCell px py t = readCell px py s) ∧
      ((∃ px py, spriteCovers s (readV x s) (readV y s) n.toNat px py ∧ readCell px py s = true) → readV vf t = 1) ∧
      ((∀ px py, spriteCovers s (readV x s) (readV y s) n.toNat px py → readCell px py s = false) → readV vf t = 0) ∧
      onlyRegs [vf] s t ∧ pcNext s t ∧ onlyChanges [.regs, .disp, .pc] s t

/-- R201, an inference the spec marks as its own: drawing the same sprite twice at the same place restores the display, and the
second draw sets VF exactly when some cell under a 1 bit was 0 before the first. -/
def Obligations.DrawingTwiceRestoresTheDisplay : Prop :=
  ∀ (x y : RegIdx) (n : Nibble) (s : State), x ≠ vf → y ≠ vf →
    ∃ t u, exec (.drw x y n) s = .next t ∧ exec (.drw x y n) t = .next u ∧
      (∀ px py, readCell px py u = readCell px py s) ∧
      (readV vf u = 1 ↔ ∃ px py, spriteCovers s (readV x s) (readV y s) n.toNat px py ∧ readCell px py s = false)

/-! ## Keys and timers -/

/-- R222: the key a register value names: itself up to 15; above, none or its low nibble, as `KEY_OOR` says. The key `none` is
never pressed and is never cleared, in any state. What happens above 15 is the spec's own decision (D10). -/
def Obligations.KeyOfNamesTheKey : Prop :=
  (∀ b : Byte,
    (b.toNat ≤ 15 → ∀ mode, ∃ k, keyOf mode b = some k ∧ k.toNat = b.toNat) ∧
    (15 < b.toNat → keyOf .notPressed b = none) ∧
    (15 < b.toNat → ∃ k, keyOf .lowNibble b = some k ∧ k.toNat = b.toNat % 16)) ∧
  ∀ s : State, keyPressed none s = false ∧ consumeKey none s = s

/-- R220: `SKP Vx` clears the flag of a pressed key and skips; with no key named, or one that is not pressed, only PC moves, to the
next word. -/
def Obligations.SkpConsumesAndSkips : Prop :=
  ∀ (x : RegIdx) (s : State), encodedAs (wordXkk 0xE x 0x9E) (.skp x) 24 ∧
    (∀ k, keyOf s.cfg.keyOor (readV x s) = some k → readKey k s = true →
      ∃ t, exec (.skp x) s = .next t ∧ readKey k t = false ∧ (∀ j, j ≠ k → readKey j t = readKey j s) ∧ pcSkip s t ∧
        onlyChanges [.keys, .pc] s t) ∧
    ((∀ k, keyOf s.cfg.keyOor (readV x s) = some k → readKey k s = false) →
      ∃ t, exec (.skp x) s = .next t ∧ pcNext s t ∧ onlyChanges [.pc] s t)

/-- R221: `SKNP Vx` skips when no key is named or the key is not pressed, and never changes the latch. -/
def Obligations.SknpSkipsWhenNotPressed : Prop :=
  ∀ (x : RegIdx) (s : State), encodedAs (wordXkk 0xE x 0xA1) (.sknp x) 25 ∧
    ∃ t, exec (.sknp x) s = .next t ∧ onlyChanges [.pc] s t ∧
      ((∃ k, keyOf s.cfg.keyOor (readV x s) = some k ∧ readKey k s = true) → pcNext s t) ∧
      ((∀ k, keyOf s.cfg.keyOor (readV x s) = some k → readKey k s = false) → pcSkip s t)

/-- R223: `LD Vx, K` changes nothing at all, PC included, while no key is latched; otherwise it writes the lowest latched key to
V[x], clears that flag when `FX0A_CONSUME` is true, and goes on. -/
def Obligations.KeyWaitBindsTheLowestKey : Prop :=
  ∀ (x : RegIdx) (s : State), encodedAs (wordXkk 0xF x 0x0A) (.ldVxKey x) 27 ∧
    ((∀ k, readKey k s = false) → exec (.ldVxKey x) s = .next s) ∧
    (∀ k : KeyIdx, readKey k s = true → (∀ j : KeyIdx, j.toNat < k.toNat → readKey j s = false) →
      ∃ t, exec (.ldVxKey x) s = .next t ∧ (readV x t).toNat = k.toNat ∧ onlyRegs [x] s t ∧
        readKey k t = !s.cfg.fx0aConsume ∧ (∀ j, j ≠ k → readKey j t = readKey j s) ∧ pcNext s t ∧
        onlyChanges [.regs, .keys, .pc] s t)

/-- R224, R225, R226: `LD Vx, DT`, `LD DT, Vx` and `LD ST, Vx` copy between V[x] and a timer and change nothing else but PC. -/
def Obligations.TimerMovesCopyAByte : Prop :=
  ∀ (x : RegIdx) (s : State),
    encodedAs (wordXkk 0xF x 0x07) (.ldVxDt x) 26 ∧ encodedAs (wordXkk 0xF x 0x15) (.ldDtVx x) 28 ∧
    encodedAs (wordXkk 0xF x 0x18) (.ldStVx x) 29 ∧
    (∃ t, exec (.ldVxDt x) s = .next t ∧ readV x t = s.dt ∧ onlyRegs [x] s t ∧ pcNext s t ∧ onlyChanges [.regs, .pc] s t) ∧
    (∃ t, exec (.ldDtVx x) s = .next t ∧ t.dt = readV x s ∧ pcNext s t ∧ onlyChanges [.dt, .pc] s t) ∧
    (∃ t, exec (.ldStVx x) s = .next t ∧ t.st = readV x s ∧ pcNext s t ∧ onlyChanges [.st, .pc] s t)

/-! ## Host operations and reset -/

/-- R227: `TimerTick` takes each timer down by one toward zero, independently, and changes nothing else. -/
def Obligations.TimerTickDecrementsBoth : Prop :=
  ∀ s : State, ∃ t, applyMove .timerTick s = .next t ∧ t.dt.toNat = s.dt.toNat - 1 ∧ t.st.toNat = s.st.toNat - 1 ∧
    onlyChanges [.dt, .st] s t

/-- R228: `TickIfDue` ticks when the interval has passed and notes the time, does nothing otherwise, and twice at the same time
ticks at most once. Time is in exact seconds (log 6). -/
def Obligations.TickIfDueTicksAtMostOnce : Prop :=
  ∀ (interval now last : Rat) (s : State), 0 < interval →
    (interval ≤ now - last → tickIfDue interval now last s = (timerTick s, now)) ∧
    (now - last < interval → tickIfDue interval now last s = (s, last)) ∧
    tickIfDue interval now (tickIfDue interval now last s).2 (tickIfDue interval now last s).1 = tickIfDue interval now last s

/-- R229: `InputSet(k, b)` writes one flag and nothing else, and no other move makes a flag true. -/
def Obligations.OnlyInputSetPressesAKey : Prop :=
  (∀ (k : KeyIdx) (b : Bool) (s : State), ∃ t, applyMove (.inputSet k b) s = .next t ∧ readKey k t = b ∧
    (∀ j, j ≠ k → readKey j t = readKey j s) ∧ onlyChanges [.keys] s t) ∧
  (∀ (m : HostMove) (k : KeyIdx) (s : State), readKey k s = false → readKey k (afterMove m s) = true →
    m = .inputSet k true)

/-- R252: `Load` reports `LoadOverflow(base, len)` and writes nothing when it would pass the end of memory; otherwise the bytes
stand from `base` up and nothing else changes. -/
def Obligations.LoadCopiesOrOverflows : Prop :=
  ∀ (bytes : List Byte) (base : Nat) (s : State),
    (4096 < base + bytes.length →
      applyMove (.load bytes base) s = .fault (.loadOverflow base bytes.length) ∧ afterMove (.load bytes base) s = s) ∧
    (base + bytes.length ≤ 4096 → ∃ t, applyMove (.load bytes base) s = .next t ∧
      (∀ (j : Nat) (h : j < bytes.length), readByte (BitVec.ofNat 12 (base + j)) t = bytes[j]) ∧
      (∀ a : Addr, (a.toNat < base ∨ base + bytes.length ≤ a.toNat) → readByte a t = readByte a s) ∧
      onlyChanges [.mem] s t)

/-- R36, R280, R281: `Reset` cannot fail; it and construction, from any state and for any parameters, leave every register, entry,
timer, cell and flag 0, PC at 0x200, and memory zero but for the font at 0 to 79, so that a program loaded before is erased. -/
def Obligations.ResetValuesAreTheSpecs : Prop :=
  ∀ s : State, (∃ t, applyMove .reset s = .next t) ∧
    ∀ t : State, (applyMove .reset s = .next t ∨ t = State.initial s.cfg) →
      (∀ k, readV k t = 0) ∧ t.i = 0 ∧ t.pc = 0x200#12 ∧ t.sp = 0 ∧ (∀ j, readStack j t = 0) ∧ t.dt = 0 ∧ t.st = 0 ∧
      (∀ a : Addr, ∀ h : a.toNat < 80, readByte a t = s.cfg.font[a.toNat]) ∧
      (∀ a : Addr, 80 ≤ a.toNat → readByte a t = 0) ∧
      (∀ px py, readCell px py t = false) ∧ (∀ k, readKey k t = false)

/-! ## The whole machine -/

/-- R22, R23, R24, R27, R28, R29, R32, R33, R54 (who writes what): every instruction changes only the parts, the general registers
and the bytes of memory that the spec's tables let it write. -/
def Obligations.EveryInstructionKeepsItsFootprint : Prop :=
  ∀ (i : Instr) (s t : State), exec i s = .next t →
    onlyChanges (writesParts i) s t ∧ (∀ k, mayWriteReg i k = false → readV k t = readV k s) ∧
    (∀ a, ¬ storesTo i s a → readByte a t = readByte a s)

/-- Every step keeps memory in its canonical form: strictly rising addresses below 4096, no entry equal to the reset contents.
The canonical form is the model's own representation of the 4096 bytes (log 4, DEDUCED), no rule of the spec. -/
def Obligations.StepKeepsMemoryCanonical : Prop :=
  ∀ s t : State, s.Inv → step s = .next t → t.Inv

/-- Memory is canonical after reset, for the default parameters and for any others. The canonical form is the model's own
representation of the 4096 bytes (log 4, DEDUCED), no rule of the spec. -/
def Obligations.ResetMemoryIsCanonical : Prop :=
  State.reset.Inv ∧ ∀ p : Config.Params, (State.initial p).Inv

/-- The model's own invariant over every interleaving of steps (with any random bytes) and host operations: memory stays
canonical and the parameters never change. The spec gives only the moves and their interleaving (R259, R260); the canonical form is
the model's representation (log 4, DEDUCED), and parameters that stand in the state, written by nothing and kept by `Reset`, are
its choices (logs 2 and 8, DESIGN CHOICE). -/
def Obligations.EveryInterleavingKeepsTheInvariant : Prop :=
  ∀ (ms : List HostMove) (s : State), s.Inv → (runMoves ms s).Inv ∧ (runMoves ms s).cfg = s.cfg

/-- R26, an inference the spec marks as its own: a step keeps PC and every stack entry even, unless the instruction jumps or calls
to an odd target. -/
def Obligations.StepKeepsPcEven : Prop :=
  ∀ (s t : State) (i : Instr), s.EvenPc → decodeWord (fetchWord s) = .ok i → evenTarget i s → step s = .next t → t.EvenPc

/-- R36: PC and every stack entry are even after reset, for any parameters. -/
def Obligations.ResetPcIsEven : Prop := State.reset.EvenPc ∧ ∀ p : Config.Params, (State.initial p).EvenPc

/-- R257: key changes and timer ticks reach a program only through `Ex9E`, `ExA1`, `Fx0A` and `Fx07`: on any other instruction two
states that differ only in the latch and the timers step alike, but for the latch and the timers. -/
def Obligations.InputsReachOnlyTheirReaders : Prop :=
  ∀ (s : State) (keys : Vector Bool 16) (dt st : Byte),
    (∀ i, decodeWord (fetchWord s) = .ok i → readsInputs i = false) →
    sameButInputs (step s) (step { s with keys := keys, dt := dt, st := st })
end

