-- ==== Sys2Proof/Laws/Decode.lean ====
section
/-! SUPPORT. The nibbles of the words that the encoder builds, the bytes of a word, and a word as its nibbles
(spec/30_encoding.md R71, R72; spec/20_memory.md R52). -/

namespace Sys2Proof

/-! ## Nibbles of a word built from its parts -/

section
variable (a b c d : Nibble) (kk : Byte) (nnn : Addr)

@[simp] theorem nib0_nibbles : nib0 (a ++ b ++ c ++ d) = a := by
  apply BitVec.eq_of_getLsbD_eq; intro i hi; simp [nib0]; grind
@[simp] theorem nib1_nibbles : nib1 (a ++ b ++ c ++ d) = b := by
  apply BitVec.eq_of_getLsbD_eq; intro i hi; simp [nib1]; grind
@[simp] theorem nib2_nibbles : nib2 (a ++ b ++ c ++ d) = c := by
  apply BitVec.eq_of_getLsbD_eq; intro i hi; simp [nib2]; grind
@[simp] theorem nib3_nibbles : nib3 (a ++ b ++ c ++ d) = d := by
  apply BitVec.eq_of_getLsbD_eq; intro i hi; simp [nib3]; grind

@[simp] theorem nib0_regByte : nib0 (a ++ b ++ kk) = a := by
  apply BitVec.eq_of_getLsbD_eq; intro i hi; simp [nib0]; grind
@[simp] theorem nib1_regByte : nib1 (a ++ b ++ kk) = b := by
  apply BitVec.eq_of_getLsbD_eq; intro i hi; simp [nib1]; grind
@[simp] theorem nib2_regByte : nib2 (a ++ b ++ kk) = kk.extractLsb' 4 4 := by
  apply BitVec.eq_of_getLsbD_eq; intro i hi; simp [nib2]; grind
@[simp] theorem nib3_regByte : nib3 (a ++ b ++ kk) = kk.extractLsb' 0 4 := by
  apply BitVec.eq_of_getLsbD_eq; intro i hi; simp [nib3]; grind

@[simp] theorem nib0_addr : nib0 (a ++ nnn) = a := by
  apply BitVec.eq_of_getLsbD_eq; intro i hi; simp [nib0]; grind
@[simp] theorem nib1_addr : nib1 (a ++ nnn) = nnn.extractLsb' 8 4 := by
  apply BitVec.eq_of_getLsbD_eq; intro i hi; simp [nib1]; grind
@[simp] theorem nib2_addr : nib2 (a ++ nnn) = nnn.extractLsb' 4 4 := by
  apply BitVec.eq_of_getLsbD_eq; intro i hi; simp [nib2]; grind
@[simp] theorem nib3_addr : nib3 (a ++ nnn) = nnn.extractLsb' 0 4 := by
  apply BitVec.eq_of_getLsbD_eq; intro i hi; simp [nib3]; grind

/-! ## Parts joined again -/

@[simp] theorem join_byte : kk.extractLsb' 4 4 ++ kk.extractLsb' 0 4 = kk := by
  apply BitVec.eq_of_getLsbD_eq; intro i hi; simp; grind

@[simp] theorem join_addr : nnn.extractLsb' 8 4 ++ nnn.extractLsb' 4 4 ++ nnn.extractLsb' 0 4 = nnn := by
  apply BitVec.eq_of_getLsbD_eq; intro i hi; simp; grind

theorem word_eq_nibbles (w : OpWord) : w = nib0 w ++ nib1 w ++ nib2 w ++ nib3 w := by
  apply BitVec.eq_of_getLsbD_eq; intro i hi; simp [nib0, nib1, nib2, nib3]; grind

theorem fieldKk_eq (w : OpWord) : fieldKk w = nib2 w ++ nib3 w := by
  apply BitVec.eq_of_getLsbD_eq; intro i hi; simp [fieldKk, nib2, nib3]; grind

theorem fieldNnn_eq (w : OpWord) : fieldNnn w = nib1 w ++ nib2 w ++ nib3 w := by
  apply BitVec.eq_of_getLsbD_eq; intro i hi; simp [fieldNnn, nib1, nib2, nib3]; grind

/-! ## Bytes of a word -/

@[simp] theorem wordOfBytes_high_low (w : OpWord) : wordOfBytes (highByte w) (lowByte w) = w := by
  apply BitVec.eq_of_getLsbD_eq; intro i hi; simp [wordOfBytes, highByte, lowByte]; grind

end

/-- The decoder on the bytes of a word is the decoder on the word (R52, R75). -/
theorem decodeBytes_word (w : OpWord) (rest : List Byte) :
    decodeBytes (highByte w :: lowByte w :: rest) =
      match decodeWord w with
      | .ok i => .ok i rest
      | .illegal => .error (.illegalWord w) := by
  cases h : decodeWord w <;> simp [decodeBytes, h]

/-- A word given as its nibbles decodes as they do (R71). -/
theorem decodeWord_nibbles (a b c d : Nibble) : decodeWord (a ++ b ++ c ++ d) = decodeNibbles a b c d := by
  simp [decodeWord]

/-! ## Words as numbers -/

/-- Bits put above other bits, as a number (R6). -/
theorem append_toNat {m n : Nat} (a : BitVec m) (b : BitVec n) : (a ++ b).toNat = a.toNat * 2 ^ n + b.toNat := by
  rw [BitVec.toNat_append, ← Nat.shiftLeft_add_eq_or_of_lt b.isLt, Nat.shiftLeft_eq]

/-- The fetched word as a number: the first byte times 256 plus the second (R52). -/
theorem wordOfBytes_toNat (hi lo : Byte) : (wordOfBytes hi lo).toNat = hi.toNat * 256 + lo.toNat := append_toNat hi lo

/-! ## What each group of the decoder can answer -/

theorem eq_ofNat_of_toNat {n k : Nat} {b : BitVec n} (h : b.toNat = k) : b = BitVec.ofNat n k := by
  rw [← h, BitVec.ofNat_toNat, BitVec.setWidth_eq]

theorem assoc_addr (a b c d : Nibble) : a ++ (b ++ c ++ d) = a ++ b ++ c ++ d := by
  apply BitVec.eq_of_getLsbD_eq; intro i hi; simp; grind

theorem assoc_byte (a b c d : Nibble) : a ++ b ++ (c ++ d) = a ++ b ++ c ++ d := by
  apply BitVec.eq_of_getLsbD_eq; intro i hi; simp; grind

/-- Words `0nnn`: whatever they decode to is well-formed and encodes back (R73, R75). -/
theorem decodeGroup0_ok {b c d : Nibble} {i : Instr} (h : decodeGroup0 b c d = .ok i) :
    i.wellFormed = true ∧ encode i = 0x0#4 ++ b ++ c ++ d := by
  unfold decodeGroup0 at h
  split at h
  · rename_i hn
    obtain ⟨rfl, rfl, rfl⟩ := hn
    cases h
    exact ⟨rfl, rfl⟩
  · split at h
    · rename_i hn
      obtain ⟨rfl, rfl, rfl⟩ := hn
      cases h
      exact ⟨rfl, rfl⟩
    · rename_i h1 h2
      cases h
      refine ⟨?_, assoc_addr _ _ _ _⟩
      have join : ∀ (a e : Addr), b ++ c ++ d = a → a.extractLsb' 8 4 ++ a.extractLsb' 4 4 ++ a.extractLsb' 0 4 = e →
          b = a.extractLsb' 8 4 ∧ c = a.extractLsb' 4 4 ∧ d = a.extractLsb' 0 4 := by
        rintro a - rfl -
        refine ⟨?_, ?_, ?_⟩ <;> (apply BitVec.eq_of_getLsbD_eq; intro i hi; simp; grind)
      simp only [Instr.wellFormed, Bool.and_eq_true, bne_iff_ne]
      exact ⟨fun e => h1 (join _ _ e rfl), fun e => h2 (join _ _ e rfl)⟩

/-- Words `8xyN`: whatever they decode to is well-formed and encodes back (R73). -/
theorem decodeGroup8_ok {x y d : Nibble} {i : Instr} (h : decodeGroup8 x y d = .ok i) :
    i.wellFormed = true ∧ encode i = 0x8#4 ++ x ++ y ++ d := by
  unfold decodeGroup8 at h
  split at h <;> first | contradiction | (rename_i hd; cases h; obtain rfl := eq_ofNat_of_toNat hd; exact ⟨rfl, rfl⟩)

/-- Words `Exkk`: whatever they decode to is well-formed and encodes back (R73). -/
theorem decodeGroupE_ok {x : Nibble} {kk : Byte} {i : Instr} (h : decodeGroupE x kk = .ok i) :
    i.wellFormed = true ∧ encode i = 0xE#4 ++ x ++ kk := by
  unfold decodeGroupE at h
  split at h <;> first | contradiction | (rename_i hd; cases h; obtain rfl := eq_ofNat_of_toNat hd; exact ⟨rfl, rfl⟩)

/-- Words `Fxkk`: whatever they decode to is well-formed and encodes back (R73). -/
theorem decodeGroupF_ok {x : Nibble} {kk : Byte} {i : Instr} (h : decodeGroupF x kk = .ok i) :
    i.wellFormed = true ∧ encode i = 0xF#4 ++ x ++ kk := by
  unfold decodeGroupF at h
  split at h <;> first | contradiction | (rename_i hd; cases h; obtain rfl := eq_ofNat_of_toNat hd; exact ⟨rfl, rfl⟩)

end Sys2Proof
end

