-- ==== Sys2Proof/Laws/Memory.lean ====
section
/-! SUPPORT. The laws of memory: what a read sees after a write, that every operation keeps the canonical form, and that
canonical memories which read alike are equal lists. -/

namespace Sys2Proof.Machine

variable {font : Config.Font} {m m' : Mem} {a b lo : Nat} {v : Byte}

/-! ## Reads after writes -/

@[simp] theorem Memory.read_nil : Memory.read font [] a = Memory.background font a := rfl

@[simp] theorem Memory.read_cons (c : Host.Cell) :
    Memory.read font (c :: m) a = if c.1 = a then c.2 else Memory.read font m a := rfl

theorem Memory.read_erase_same : Memory.read font (Memory.erase a m) a = Memory.background font a := by
  induction m with
  | nil => rfl
  | cons c m ih =>
    by_cases h : c.1 = a <;> simp_all [Memory.erase]

theorem Memory.read_erase_other (h : b ≠ a) : Memory.read font (Memory.erase a m) b = Memory.read font m b := by
  induction m with
  | nil => rfl
  | cons c m ih =>
    by_cases hc : c.1 = a
    · have : c.1 ≠ b := fun e => h (e ▸ hc)
      simp_all [Memory.erase]
    · simp_all [Memory.erase]

theorem Memory.read_insert_other (h : b ≠ a) : Memory.read font (Memory.insert a v m) b = Memory.read font m b := by
  induction m with
  | nil => simp [Memory.insert, h.symm]
  | cons c m ih =>
    by_cases hc : a < c.1 <;> simp [Memory.insert, hc, h.symm, ih]

/-- An entry just inserted is what its address reads as, when no entry for that address was there. -/
theorem Memory.read_insert_same (h : ∀ c ∈ m, c.1 ≠ a) : Memory.read font (Memory.insert a v m) a = v := by
  induction m with
  | nil => simp [Memory.insert]
  | cons c m ih =>
    have hc : c.1 ≠ a := h c (by simp)
    have := ih fun d hd => h d (by simp [hd])
    by_cases hl : a < c.1 <;> simp [Memory.insert, hl, hc, this]

theorem Memory.mem_erase {c : Host.Cell} : c ∈ Memory.erase a m ↔ c ∈ m ∧ c.1 ≠ a := by
  simp [Memory.erase]

/-- A read after a write to the same address gives the value written (R55). -/
@[simp] theorem Memory.read_write_same : Memory.read font (Memory.write font a v m) a = v := by
  unfold Memory.write
  split
  · rename_i h
    rw [Memory.read_erase_same, h]
  · exact Memory.read_insert_same fun c hc => (Memory.mem_erase.1 hc).2

/-- A write leaves every other address alone (R55). -/
theorem Memory.read_write_other (h : b ≠ a) : Memory.read font (Memory.write font a v m) b = Memory.read font m b := by
  unfold Memory.write
  split
  · exact Memory.read_erase_other h
  · rw [Memory.read_insert_other h, Memory.read_erase_other h]

theorem Memory.read_write :
    Memory.read font (Memory.write font a v m) b = if b = a then v else Memory.read font m b := by
  by_cases h : b = a
  · simp [h]
  · simp [h, Memory.read_write_other h]

/-! ## The canonical form -/

theorem Memory.wfFrom_cons (c : Host.Cell) :
    Memory.wfFrom font lo (c :: m) = true ↔
      lo ≤ c.1 ∧ c.1 < memSize ∧ c.2 ≠ Memory.background font c.1 ∧ Memory.wfFrom font (c.1 + 1) m = true := by
  simp [Memory.wfFrom, and_assoc]

/-- A lower bound may be lowered. -/
theorem Memory.wfFrom_mono (h : lo ≤ b) (hw : Memory.wfFrom font b m = true) : Memory.wfFrom font lo m = true := by
  cases m with
  | nil => rfl
  | cons c m =>
    rw [Memory.wfFrom_cons] at hw ⊢
    exact ⟨h.trans hw.1, hw.2⟩

theorem Memory.wfFrom_erase (hw : Memory.wfFrom font lo m = true) : Memory.wfFrom font lo (Memory.erase a m) = true := by
  induction m generalizing lo with
  | nil => rfl
  | cons c m ih =>
    rw [Memory.wfFrom_cons] at hw
    obtain ⟨h1, h2, h3, h4⟩ := hw
    have := ih h4
    by_cases hc : c.1 = a
    · rw [show Memory.erase a (c :: m) = Memory.erase a m by simp [Memory.erase, hc]]
      exact Memory.wfFrom_mono (by omega) this
    · rw [show Memory.erase a (c :: m) = c :: Memory.erase a m by simp [Memory.erase, hc], Memory.wfFrom_cons]
      exact ⟨h1, h2, h3, this⟩

theorem Memory.wfFrom_insert (hlo : lo ≤ a) (ha : a < memSize) (hv : v ≠ Memory.background font a)
    (hm : ∀ c ∈ m, c.1 ≠ a) (hw : Memory.wfFrom font lo m = true) :
    Memory.wfFrom font lo (Memory.insert a v m) = true := by
  induction m generalizing lo with
  | nil => simp [Memory.insert, Memory.wfFrom, hlo, ha, hv]
  | cons c m ih =>
    have hca : c.1 ≠ a := hm c (by simp)
    have hw' := (Memory.wfFrom_cons c).1 hw
    by_cases hc : a < c.1
    · simp only [Memory.insert, hc, if_true]
      rw [Memory.wfFrom_cons, Memory.wfFrom_cons]
      exact ⟨hlo, ha, hv, hc, hw'.2⟩
    · simp only [Memory.insert, hc, if_false]
      rw [Memory.wfFrom_cons]
      exact ⟨hw'.1, hw'.2.1, hw'.2.2.1, ih (by omega) (fun d hd => hm d (by simp [hd])) hw'.2.2.2⟩

/-- A write inside memory keeps the canonical form. -/
theorem Memory.wf_write (ha : a < memSize) (hw : Memory.wf font m = true) :
    Memory.wf font (Memory.write font a v m) = true := by
  unfold Memory.write
  split
  · exact Memory.wfFrom_erase hw
  · rename_i hv
    exact Memory.wfFrom_insert (Nat.zero_le a) ha hv (fun c hc => (Memory.mem_erase.1 hc).2) (Memory.wfFrom_erase hw)

/-- A list of bytes written inside memory keeps the canonical form. -/
theorem Memory.wf_writeList (bs : List Byte) (ha : a + bs.length ≤ memSize) (hw : Memory.wf font m = true) :
    Memory.wf font (Memory.writeList font a bs m) = true := by
  induction bs generalizing a m with
  | nil => exact hw
  | cons x bs ih =>
    simp only [List.length_cons] at ha
    exact ih (by omega) (Memory.wf_write (by omega) hw)

/-- Below the lower bound of a canonical list every address reads as the reset contents. -/
theorem Memory.read_below (hb : b < lo) (hw : Memory.wfFrom font lo m = true) :
    Memory.read font m b = Memory.background font b := by
  induction m generalizing lo with
  | nil => rfl
  | cons c m ih =>
    obtain ⟨h1, -, -, h4⟩ := (Memory.wfFrom_cons c).1 hw
    have hcb : c.1 ≠ b := by omega
    rw [Memory.read_cons, if_neg hcb]
    exact ih (by omega) h4

/-- Canonical memories that read alike at every address are equal lists. -/
theorem Memory.ext_of_wfFrom (hw : Memory.wfFrom font lo m = true) (hw' : Memory.wfFrom font lo m' = true)
    (h : ∀ a, Memory.read font m a = Memory.read font m' a) : m = m' := by
  induction m generalizing lo m' with
  | nil =>
    cases m' with
    | nil => rfl
    | cons d m' =>
      have := h d.1
      simp only [Memory.read_nil, Memory.read_cons, if_true] at this
      exact absurd this.symm ((Memory.wfFrom_cons d).1 hw').2.2.1
  | cons c m ih =>
    obtain ⟨hc1, -, hc3, hc4⟩ := (Memory.wfFrom_cons c).1 hw
    cases m' with
    | nil =>
      have := h c.1
      simp only [Memory.read_nil, Memory.read_cons, if_true] at this
      exact absurd this hc3
    | cons d m' =>
      obtain ⟨hd1, -, hd3, hd4⟩ := (Memory.wfFrom_cons d).1 hw'
      have hcd : c.1 = d.1 := by
        rcases Nat.lt_trichotomy c.1 d.1 with hlt | heq | hgt
        · have := h c.1
          rw [Memory.read_cons, if_pos rfl, Memory.read_cons, if_neg (by omega),
            Memory.read_below (lo := d.1 + 1) (by omega) hd4] at this
          exact absurd this hc3
        · exact heq
        · have := h d.1
          rw [Memory.read_cons, if_neg (by omega), Memory.read_below (lo := c.1 + 1) (by omega) hc4,
            Memory.read_cons, if_pos rfl] at this
          exact absurd this.symm hd3
      have hv : c.2 = d.2 := by
        have := h c.1
        simpa [hcd] using this
      have hrest : m = m' := by
        refine ih (lo := c.1 + 1) hc4 (hcd ▸ hd4) fun a => ?_
        by_cases ha : a < c.1 + 1
        · rw [Memory.read_below ha hc4, Memory.read_below (hcd ▸ ha) hd4]
        · have := h a
          rwa [Memory.read_cons, if_neg (by omega), Memory.read_cons, if_neg (by omega)] at this
      rw [hrest, Prod.ext hcd hv]

end Sys2Proof.Machine
end

