-- ==== Sys2Proof/Laws/State.lean ====
section
/-! SUPPORT. One lemma per field per update of State: what an update writes and what it leaves, each true by definition. -/

namespace Sys2Proof.Machine

variable (s : State)

@[simp] theorem writeV_v (x : RegIdx) (b : Byte) : (writeV x b s).v = s.v.set x.toNat b x.isLt := rfl
@[simp] theorem writeV_i (x : RegIdx) (b : Byte) : (writeV x b s).i = s.i := rfl
@[simp] theorem writeV_pc (x : RegIdx) (b : Byte) : (writeV x b s).pc = s.pc := rfl
@[simp] theorem writeV_sp (x : RegIdx) (b : Byte) : (writeV x b s).sp = s.sp := rfl
@[simp] theorem writeV_stack (x : RegIdx) (b : Byte) : (writeV x b s).stack = s.stack := rfl
@[simp] theorem writeV_dt (x : RegIdx) (b : Byte) : (writeV x b s).dt = s.dt := rfl
@[simp] theorem writeV_st (x : RegIdx) (b : Byte) : (writeV x b s).st = s.st := rfl
@[simp] theorem writeV_mem (x : RegIdx) (b : Byte) : (writeV x b s).mem = s.mem := rfl
@[simp] theorem writeV_disp (x : RegIdx) (b : Byte) : (writeV x b s).disp = s.disp := rfl
@[simp] theorem writeV_keys (x : RegIdx) (b : Byte) : (writeV x b s).keys = s.keys := rfl
@[simp] theorem writeV_cfg (x : RegIdx) (b : Byte) : (writeV x b s).cfg = s.cfg := rfl
@[simp] theorem writeV_draws (x : RegIdx) (b : Byte) : (writeV x b s).draws = s.draws := rfl

@[simp] theorem writeI_v (a : Addr) : (writeI a s).v = s.v := rfl
@[simp] theorem writeI_i (a : Addr) : (writeI a s).i = a := rfl
@[simp] theorem writeI_pc (a : Addr) : (writeI a s).pc = s.pc := rfl
@[simp] theorem writeI_sp (a : Addr) : (writeI a s).sp = s.sp := rfl
@[simp] theorem writeI_stack (a : Addr) : (writeI a s).stack = s.stack := rfl
@[simp] theorem writeI_dt (a : Addr) : (writeI a s).dt = s.dt := rfl
@[simp] theorem writeI_st (a : Addr) : (writeI a s).st = s.st := rfl
@[simp] theorem writeI_mem (a : Addr) : (writeI a s).mem = s.mem := rfl
@[simp] theorem writeI_disp (a : Addr) : (writeI a s).disp = s.disp := rfl
@[simp] theorem writeI_keys (a : Addr) : (writeI a s).keys = s.keys := rfl
@[simp] theorem writeI_cfg (a : Addr) : (writeI a s).cfg = s.cfg := rfl
@[simp] theorem writeI_draws (a : Addr) : (writeI a s).draws = s.draws := rfl

@[simp] theorem writeDt_v (b : Byte) : (writeDt b s).v = s.v := rfl
@[simp] theorem writeDt_i (b : Byte) : (writeDt b s).i = s.i := rfl
@[simp] theorem writeDt_pc (b : Byte) : (writeDt b s).pc = s.pc := rfl
@[simp] theorem writeDt_sp (b : Byte) : (writeDt b s).sp = s.sp := rfl
@[simp] theorem writeDt_stack (b : Byte) : (writeDt b s).stack = s.stack := rfl
@[simp] theorem writeDt_dt (b : Byte) : (writeDt b s).dt = b := rfl
@[simp] theorem writeDt_st (b : Byte) : (writeDt b s).st = s.st := rfl
@[simp] theorem writeDt_mem (b : Byte) : (writeDt b s).mem = s.mem := rfl
@[simp] theorem writeDt_disp (b : Byte) : (writeDt b s).disp = s.disp := rfl
@[simp] theorem writeDt_keys (b : Byte) : (writeDt b s).keys = s.keys := rfl
@[simp] theorem writeDt_cfg (b : Byte) : (writeDt b s).cfg = s.cfg := rfl
@[simp] theorem writeDt_draws (b : Byte) : (writeDt b s).draws = s.draws := rfl

@[simp] theorem writeSt_v (b : Byte) : (writeSt b s).v = s.v := rfl
@[simp] theorem writeSt_i (b : Byte) : (writeSt b s).i = s.i := rfl
@[simp] theorem writeSt_pc (b : Byte) : (writeSt b s).pc = s.pc := rfl
@[simp] theorem writeSt_sp (b : Byte) : (writeSt b s).sp = s.sp := rfl
@[simp] theorem writeSt_stack (b : Byte) : (writeSt b s).stack = s.stack := rfl
@[simp] theorem writeSt_dt (b : Byte) : (writeSt b s).dt = s.dt := rfl
@[simp] theorem writeSt_st (b : Byte) : (writeSt b s).st = b := rfl
@[simp] theorem writeSt_mem (b : Byte) : (writeSt b s).mem = s.mem := rfl
@[simp] theorem writeSt_disp (b : Byte) : (writeSt b s).disp = s.disp := rfl
@[simp] theorem writeSt_keys (b : Byte) : (writeSt b s).keys = s.keys := rfl
@[simp] theorem writeSt_cfg (b : Byte) : (writeSt b s).cfg = s.cfg := rfl
@[simp] theorem writeSt_draws (b : Byte) : (writeSt b s).draws = s.draws := rfl

@[simp] theorem writePc_v (a : Addr) : (writePc a s).v = s.v := rfl
@[simp] theorem writePc_i (a : Addr) : (writePc a s).i = s.i := rfl
@[simp] theorem writePc_pc (a : Addr) : (writePc a s).pc = a := rfl
@[simp] theorem writePc_sp (a : Addr) : (writePc a s).sp = s.sp := rfl
@[simp] theorem writePc_stack (a : Addr) : (writePc a s).stack = s.stack := rfl
@[simp] theorem writePc_dt (a : Addr) : (writePc a s).dt = s.dt := rfl
@[simp] theorem writePc_st (a : Addr) : (writePc a s).st = s.st := rfl
@[simp] theorem writePc_mem (a : Addr) : (writePc a s).mem = s.mem := rfl
@[simp] theorem writePc_disp (a : Addr) : (writePc a s).disp = s.disp := rfl
@[simp] theorem writePc_keys (a : Addr) : (writePc a s).keys = s.keys := rfl
@[simp] theorem writePc_cfg (a : Addr) : (writePc a s).cfg = s.cfg := rfl
@[simp] theorem writePc_draws (a : Addr) : (writePc a s).draws = s.draws := rfl

@[simp] theorem advance_v : (advance s).v = s.v := rfl
@[simp] theorem advance_i : (advance s).i = s.i := rfl
@[simp] theorem advance_pc : (advance s).pc = nextAddr s := rfl
@[simp] theorem advance_sp : (advance s).sp = s.sp := rfl
@[simp] theorem advance_stack : (advance s).stack = s.stack := rfl
@[simp] theorem advance_dt : (advance s).dt = s.dt := rfl
@[simp] theorem advance_st : (advance s).st = s.st := rfl
@[simp] theorem advance_mem : (advance s).mem = s.mem := rfl
@[simp] theorem advance_disp : (advance s).disp = s.disp := rfl
@[simp] theorem advance_keys : (advance s).keys = s.keys := rfl
@[simp] theorem advance_cfg : (advance s).cfg = s.cfg := rfl
@[simp] theorem advance_draws : (advance s).draws = s.draws := rfl

@[simp] theorem skipIf_v (taken : Bool) : (skipIf taken s).v = s.v := rfl
@[simp] theorem skipIf_i (taken : Bool) : (skipIf taken s).i = s.i := rfl
@[simp] theorem skipIf_pc (taken : Bool) : (skipIf taken s).pc = if taken then skipAddr s else nextAddr s := rfl
@[simp] theorem skipIf_sp (taken : Bool) : (skipIf taken s).sp = s.sp := rfl
@[simp] theorem skipIf_stack (taken : Bool) : (skipIf taken s).stack = s.stack := rfl
@[simp] theorem skipIf_dt (taken : Bool) : (skipIf taken s).dt = s.dt := rfl
@[simp] theorem skipIf_st (taken : Bool) : (skipIf taken s).st = s.st := rfl
@[simp] theorem skipIf_mem (taken : Bool) : (skipIf taken s).mem = s.mem := rfl
@[simp] theorem skipIf_disp (taken : Bool) : (skipIf taken s).disp = s.disp := rfl
@[simp] theorem skipIf_keys (taken : Bool) : (skipIf taken s).keys = s.keys := rfl
@[simp] theorem skipIf_cfg (taken : Bool) : (skipIf taken s).cfg = s.cfg := rfl
@[simp] theorem skipIf_draws (taken : Bool) : (skipIf taken s).draws = s.draws := rfl

@[simp] theorem push_v (a : Addr) : (push a s).v = s.v := rfl
@[simp] theorem push_i (a : Addr) : (push a s).i = s.i := rfl
@[simp] theorem push_pc (a : Addr) : (push a s).pc = s.pc := rfl
@[simp] theorem push_sp (a : Addr) : (push a s).sp = s.sp + 1#4 := rfl
@[simp] theorem push_stack (a : Addr) : (push a s).stack = s.stack.set s.sp.toNat a s.sp.isLt := rfl
@[simp] theorem push_dt (a : Addr) : (push a s).dt = s.dt := rfl
@[simp] theorem push_st (a : Addr) : (push a s).st = s.st := rfl
@[simp] theorem push_mem (a : Addr) : (push a s).mem = s.mem := rfl
@[simp] theorem push_disp (a : Addr) : (push a s).disp = s.disp := rfl
@[simp] theorem push_keys (a : Addr) : (push a s).keys = s.keys := rfl
@[simp] theorem push_cfg (a : Addr) : (push a s).cfg = s.cfg := rfl
@[simp] theorem push_draws (a : Addr) : (push a s).draws = s.draws := rfl

@[simp] theorem pop_v : (pop s).v = s.v := rfl
@[simp] theorem pop_i : (pop s).i = s.i := rfl
@[simp] theorem pop_pc : (pop s).pc = s.pc := rfl
@[simp] theorem pop_sp : (pop s).sp = s.sp - 1#4 := rfl
@[simp] theorem pop_stack : (pop s).stack = s.stack := rfl
@[simp] theorem pop_dt : (pop s).dt = s.dt := rfl
@[simp] theorem pop_st : (pop s).st = s.st := rfl
@[simp] theorem pop_mem : (pop s).mem = s.mem := rfl
@[simp] theorem pop_disp : (pop s).disp = s.disp := rfl
@[simp] theorem pop_keys : (pop s).keys = s.keys := rfl
@[simp] theorem pop_cfg : (pop s).cfg = s.cfg := rfl
@[simp] theorem pop_draws : (pop s).draws = s.draws := rfl

@[simp] theorem writeByte_v (a : Addr) (b : Byte) : (writeByte a b s).v = s.v := rfl
@[simp] theorem writeByte_i (a : Addr) (b : Byte) : (writeByte a b s).i = s.i := rfl
@[simp] theorem writeByte_pc (a : Addr) (b : Byte) : (writeByte a b s).pc = s.pc := rfl
@[simp] theorem writeByte_sp (a : Addr) (b : Byte) : (writeByte a b s).sp = s.sp := rfl
@[simp] theorem writeByte_stack (a : Addr) (b : Byte) : (writeByte a b s).stack = s.stack := rfl
@[simp] theorem writeByte_dt (a : Addr) (b : Byte) : (writeByte a b s).dt = s.dt := rfl
@[simp] theorem writeByte_st (a : Addr) (b : Byte) : (writeByte a b s).st = s.st := rfl
@[simp] theorem writeByte_mem (a : Addr) (b : Byte) : (writeByte a b s).mem = Memory.write s.cfg.font a.toNat b s.mem := rfl
@[simp] theorem writeByte_disp (a : Addr) (b : Byte) : (writeByte a b s).disp = s.disp := rfl
@[simp] theorem writeByte_keys (a : Addr) (b : Byte) : (writeByte a b s).keys = s.keys := rfl
@[simp] theorem writeByte_cfg (a : Addr) (b : Byte) : (writeByte a b s).cfg = s.cfg := rfl
@[simp] theorem writeByte_draws (a : Addr) (b : Byte) : (writeByte a b s).draws = s.draws := rfl

@[simp] theorem writeDisplay_v (d : Display) : (writeDisplay d s).v = s.v := rfl
@[simp] theorem writeDisplay_i (d : Display) : (writeDisplay d s).i = s.i := rfl
@[simp] theorem writeDisplay_pc (d : Display) : (writeDisplay d s).pc = s.pc := rfl
@[simp] theorem writeDisplay_sp (d : Display) : (writeDisplay d s).sp = s.sp := rfl
@[simp] theorem writeDisplay_stack (d : Display) : (writeDisplay d s).stack = s.stack := rfl
@[simp] theorem writeDisplay_dt (d : Display) : (writeDisplay d s).dt = s.dt := rfl
@[simp] theorem writeDisplay_st (d : Display) : (writeDisplay d s).st = s.st := rfl
@[simp] theorem writeDisplay_mem (d : Display) : (writeDisplay d s).mem = s.mem := rfl
@[simp] theorem writeDisplay_disp (d : Display) : (writeDisplay d s).disp = d := rfl
@[simp] theorem writeDisplay_keys (d : Display) : (writeDisplay d s).keys = s.keys := rfl
@[simp] theorem writeDisplay_cfg (d : Display) : (writeDisplay d s).cfg = s.cfg := rfl
@[simp] theorem writeDisplay_draws (d : Display) : (writeDisplay d s).draws = s.draws := rfl

@[simp] theorem writeKey_v (k : KeyIdx) (b : Bool) : (writeKey k b s).v = s.v := rfl
@[simp] theorem writeKey_i (k : KeyIdx) (b : Bool) : (writeKey k b s).i = s.i := rfl
@[simp] theorem writeKey_pc (k : KeyIdx) (b : Bool) : (writeKey k b s).pc = s.pc := rfl
@[simp] theorem writeKey_sp (k : KeyIdx) (b : Bool) : (writeKey k b s).sp = s.sp := rfl
@[simp] theorem writeKey_stack (k : KeyIdx) (b : Bool) : (writeKey k b s).stack = s.stack := rfl
@[simp] theorem writeKey_dt (k : KeyIdx) (b : Bool) : (writeKey k b s).dt = s.dt := rfl
@[simp] theorem writeKey_st (k : KeyIdx) (b : Bool) : (writeKey k b s).st = s.st := rfl
@[simp] theorem writeKey_mem (k : KeyIdx) (b : Bool) : (writeKey k b s).mem = s.mem := rfl
@[simp] theorem writeKey_disp (k : KeyIdx) (b : Bool) : (writeKey k b s).disp = s.disp := rfl
@[simp] theorem writeKey_keys (k : KeyIdx) (b : Bool) : (writeKey k b s).keys = s.keys.set k.toNat b k.isLt := rfl
@[simp] theorem writeKey_cfg (k : KeyIdx) (b : Bool) : (writeKey k b s).cfg = s.cfg := rfl
@[simp] theorem writeKey_draws (k : KeyIdx) (b : Bool) : (writeKey k b s).draws = s.draws := rfl

@[simp] theorem countDraw_v : (countDraw s).v = s.v := rfl
@[simp] theorem countDraw_i : (countDraw s).i = s.i := rfl
@[simp] theorem countDraw_pc : (countDraw s).pc = s.pc := rfl
@[simp] theorem countDraw_sp : (countDraw s).sp = s.sp := rfl
@[simp] theorem countDraw_stack : (countDraw s).stack = s.stack := rfl
@[simp] theorem countDraw_dt : (countDraw s).dt = s.dt := rfl
@[simp] theorem countDraw_st : (countDraw s).st = s.st := rfl
@[simp] theorem countDraw_mem : (countDraw s).mem = s.mem := rfl
@[simp] theorem countDraw_disp : (countDraw s).disp = s.disp := rfl
@[simp] theorem countDraw_keys : (countDraw s).keys = s.keys := rfl
@[simp] theorem countDraw_cfg : (countDraw s).cfg = s.cfg := rfl
@[simp] theorem countDraw_draws : (countDraw s).draws = s.draws + 1 := rfl

end Sys2Proof.Machine
end

