-- ==== Sys2Proof/Laws/Ops.lean ====
section
/-! SUPPORT. What each named read sees after each named update: the spec lemmas that later proofs cite instead of unfolding
the operations. -/

namespace Sys2Proof.Machine

variable {s t : State}

/-! ## A read depends only on its own part -/

theorem readV_congr (h : t.v = s.v) (k : RegIdx) : readV k t = readV k s := by simp [readV, h]

theorem readStack_congr (h : t.stack = s.stack) (j : BitVec 4) : readStack j t = readStack j s := by simp [readStack, h]

theorem readByte_congr (hm : t.mem = s.mem) (hc : t.cfg = s.cfg) (a : Addr) : readByte a t = readByte a s := by
  simp [readByte, hm, hc]

theorem readCell_congr (h : t.disp = s.disp) (px : Fin 64) (py : Fin 32) : readCell px py t = readCell px py s := by
  simp [readCell, h]

theorem readKey_congr (h : t.keys = s.keys) (k : KeyIdx) : readKey k t = readKey k s := by simp [readKey, h]

theorem fetchWord_congr (hm : t.mem = s.mem) (hc : t.cfg = s.cfg) (hp : t.pc = s.pc) : fetchWord t = fetchWord s := by
  simp [fetchWord, hp, readByte_congr hm hc]

/-! ## Registers -/

theorem readV_writeV (k x : RegIdx) (b : Byte) (s : State) : readV k (writeV x b s) = if k = x then b else readV k s := by
  by_cases h : k = x
  · subst h
    simp [readV, writeV]
  · have : x.toNat ≠ k.toNat := fun e => h (BitVec.eq_of_toNat_eq e.symm)
    simp [readV, writeV, h, this]

@[simp] theorem readV_writeV_same (x : RegIdx) (b : Byte) (s : State) : readV x (writeV x b s) = b := by simp [readV_writeV]

theorem readV_writeV_other {k x : RegIdx} (h : k ≠ x) (b : Byte) (s : State) : readV k (writeV x b s) = readV k s := by
  simp [readV_writeV, h]

@[simp] theorem readV_writeI (k : RegIdx) (a : Addr) (s : State) : readV k (writeI a s) = readV k s := rfl
@[simp] theorem readV_writeDt (k : RegIdx) (b : Byte) (s : State) : readV k (writeDt b s) = readV k s := rfl
@[simp] theorem readV_writeSt (k : RegIdx) (b : Byte) (s : State) : readV k (writeSt b s) = readV k s := rfl
@[simp] theorem readV_writePc (k : RegIdx) (a : Addr) (s : State) : readV k (writePc a s) = readV k s := rfl
@[simp] theorem readV_advance (k : RegIdx) (s : State) : readV k (advance s) = readV k s := rfl
@[simp] theorem readV_skipIf (k : RegIdx) (b : Bool) (s : State) : readV k (skipIf b s) = readV k s := rfl
@[simp] theorem readV_push (k : RegIdx) (a : Addr) (s : State) : readV k (push a s) = readV k s := rfl
@[simp] theorem readV_pop (k : RegIdx) (s : State) : readV k (pop s) = readV k s := rfl
@[simp] theorem readV_writeByte (k : RegIdx) (a : Addr) (b : Byte) (s : State) : readV k (writeByte a b s) = readV k s := rfl
@[simp] theorem readV_writeDisplay (k : RegIdx) (d : Display) (s : State) : readV k (writeDisplay d s) = readV k s := rfl
@[simp] theorem readV_writeKey (k : RegIdx) (j : KeyIdx) (b : Bool) (s : State) : readV k (writeKey j b s) = readV k s := rfl
@[simp] theorem readV_countDraw (k : RegIdx) (s : State) : readV k (countDraw s) = readV k s := rfl

/-! ## Program counter -/

theorem nextAddr_toNat (s : State) : (nextAddr s).toNat = (s.pc.toNat + 2) % 4096 := by simp [nextAddr]

theorem skipAddr_toNat (s : State) : (skipAddr s).toNat = (s.pc.toNat + 4) % 4096 := by simp [skipAddr]

/-! ## Call stack -/

/-- A push writes the entry at the old SP and no other (R27). -/
theorem readStack_push (j : BitVec 4) (a : Addr) (s : State) :
    readStack j (push a s) = if j = s.sp then a else readStack j s := by
  by_cases h : j = s.sp
  · subst h
    simp [readStack, push]
  · have : s.sp.toNat ≠ j.toNat := fun e => h (BitVec.eq_of_toNat_eq e.symm)
    simp [readStack, push, h, this]

/-! ## Memory -/

/-- A byte written is read back, and no other byte changes (R51, R55). -/
theorem readByte_writeByte (a' a : Addr) (b : Byte) (s : State) :
    readByte a' (writeByte a b s) = if a' = a then b else readByte a' s := by
  have e : (a'.toNat = a.toNat) ↔ a' = a := ⟨BitVec.eq_of_toNat_eq, congrArg _⟩
  simp only [readByte, writeByte_cfg, writeByte_mem, Memory.read_write, e]

@[simp] theorem readByte_writeByte_same (a : Addr) (b : Byte) (s : State) : readByte a (writeByte a b s) = b := by
  simp [readByte_writeByte]

/-- A byte written keeps memory canonical. -/
theorem wf_writeByte (a : Addr) (b : Byte) (h : Memory.wf s.cfg.font s.mem = true) :
    Memory.wf (writeByte a b s).cfg.font (writeByte a b s).mem = true :=
  Memory.wf_write a.isLt h

/-- The data addresses of one instruction are distinct: at most 16 of them, modulo 4096 (R56). -/
theorem dataAddr_inj {i0 : Addr} {j k : Nat} (hj : j < 4096) (hk : k < 4096) (h : dataAddr i0 j = dataAddr i0 k) : j = k := by
  have := congrArg BitVec.toNat h
  have := i0.isLt
  simp [dataAddr] at *
  omega

/-! ## Display -/

/-- A cell written is read back, and no other cell changes (R32). -/
theorem Display.cell_setCell (d : Display) (px qx : Fin 64) (py qy : Fin 32) (b : Bool) :
    (d.setCell px py b).cell qx qy = if qx = px ∧ qy = py then b else d.cell qx qy := by
  unfold Display.setCell Display.cell
  by_cases hy : qy = py
  · subst hy
    by_cases hx : qx = px
    · subst hx
      simp
    · have : px.val ≠ qx.val := fun e => hx (Fin.ext e.symm)
      simp [hx, this]
  · have : py.val ≠ qy.val := fun e => hy (Fin.ext e.symm)
    simp [hy, this]

@[simp] theorem blankDisplay_cell (px : Fin 64) (py : Fin 32) : Display.cell blankDisplay px py = false := by
  simp [Display.cell, blankDisplay]

/-! ## Input latch -/

/-- A key flag written is read back, and no other flag changes (R33). -/
theorem readKey_writeKey (k j : KeyIdx) (b : Bool) (s : State) :
    readKey k (writeKey j b s) = if k = j then b else readKey k s := by
  by_cases h : k = j
  · subst h
    simp [readKey, writeKey]
  · have : j.toNat ≠ k.toNat := fun e => h (BitVec.eq_of_toNat_eq e.symm)
    simp [readKey, writeKey, h, this]

theorem scanOrder_complete (k : KeyIdx) : k ∈ scanOrder := by
  revert k
  decide

/-- No key is found exactly when none is latched (R223). -/
theorem lowestKey_eq_none : lowestKey s = none ↔ ∀ k, readKey k s = false := by
  simp only [lowestKey, List.find?_eq_none, Bool.not_eq_true]
  exact ⟨fun h k => h k (scanOrder_complete k), fun h k _ => h k⟩

end Sys2Proof.Machine
end

