-- ==== Sys2Proof/Laws/Loops.lean ====
section
/-! SUPPORT. What the loops of the meanings do: the register store and load, the key scan, and the sprite drawing. -/

namespace Sys2Proof.Machine

variable {s : State}

/-! ## Register store -/

/-- The store loop changes memory alone (R174). -/
theorem storeLoop_eq (regs : State) (i0 : Addr) (n : Nat) (s : State) :
    storeLoop regs i0 n s = { s with mem := (storeLoop regs i0 n s).mem } := by
  induction n with
  | zero => rfl
  | succ n ih => rw [storeLoop, ih]; rfl

/-- After the store loop, byte `k` holds register `k` for each `k` stored, and every other byte is as before (R174). -/
theorem readByte_storeLoop (regs : State) (i0 a : Addr) {n : Nat} (hn : n ≤ 16) (s : State) :
    (∀ k, k < n → a = dataAddr i0 k → readByte a (storeLoop regs i0 n s) = readV (BitVec.ofNat 4 k) regs) ∧
    ((∀ k, k < n → a ≠ dataAddr i0 k) → readByte a (storeLoop regs i0 n s) = readByte a s) := by
  induction n with
  | zero => exact ⟨fun k hk => absurd hk (Nat.not_lt_zero k), fun _ => rfl⟩
  | succ n ih =>
    obtain ⟨ih1, ih2⟩ := ih (by omega)
    constructor
    · intro k hk ha
      rw [storeLoop, readByte_writeByte]
      split
      · rename_i h
        rw [dataAddr_inj (by omega) (by omega) (ha.symm.trans h)]
      · rename_i h
        have : k ≠ n := fun e => h (e ▸ ha)
        exact ih1 k (by omega) ha
    · intro h
      rw [storeLoop, readByte_writeByte, if_neg (h n (by omega))]
      exact ih2 fun k hk => h k (by omega)

/-- The store loop keeps memory canonical. -/
theorem wf_storeLoop (regs : State) (i0 : Addr) (n : Nat) (h : Memory.wf s.cfg.font s.mem = true) :
    Memory.wf (storeLoop regs i0 n s).cfg.font (storeLoop regs i0 n s).mem = true := by
  induction n with
  | zero => exact h
  | succ n ih => exact wf_writeByte _ _ ih

/-! ## Register load -/

/-- The load loop changes general registers alone (R175). -/
theorem loadLoop_eq (source : State) (i0 : Addr) (n : Nat) (s : State) :
    loadLoop source i0 n s = { s with v := (loadLoop source i0 n s).v } := by
  induction n with
  | zero => rfl
  | succ n ih => rw [loadLoop, ih]; rfl

/-- After the load loop, register `k` holds byte `k` for each `k` loaded, and every other register is as before (R175). -/
theorem readV_loadLoop (source : State) (i0 : Addr) (k : RegIdx) {n : Nat} (hn : n ≤ 16) (s : State) :
    readV k (loadLoop source i0 n s) =
      if k.toNat < n then readByte (dataAddr i0 k.toNat) source else readV k s := by
  induction n with
  | zero => simp [loadLoop]
  | succ n ih =>
    have hk := k.isLt
    rw [loadLoop, readV_writeV, ih (by omega)]
    have e : k = BitVec.ofNat 4 n ↔ k.toNat = n := by
      rw [← BitVec.toNat_inj, BitVec.toNat_ofNat, Nat.mod_eq_of_lt (by omega)]
    by_cases h : k.toNat = n
    · simp [e, h]
    · simp only [e, h, if_false]
      have : (k.toNat < n) ↔ (k.toNat < n + 1) := by omega
      simp [this]

/-! ## Key scan -/

/-- The key found is latched and no lower key is (R223). -/
theorem lowestKey_eq_some {k : KeyIdx} :
    lowestKey s = some k ↔ readKey k s = true ∧ ∀ j : KeyIdx, j.toNat < k.toNat → readKey j s = false := by
  have hs : scanOrder.Pairwise (fun a b => a.toNat < b.toNat) := by decide
  constructor
  · intro h
    obtain ⟨hk, as, bs, hl, has⟩ := List.find?_eq_some_iff_append.1 h
    refine ⟨by simpa using hk, fun j hj => ?_⟩
    have hm := scanOrder_complete j
    rw [hl] at hm hs
    rcases List.mem_append.1 hm with h1 | h1
    · simpa using has j h1
    · rcases List.mem_cons.1 h1 with h2 | h2
      · exact absurd (h2 ▸ hj) (Nat.lt_irrefl _)
      · have := (List.pairwise_cons.1 (List.pairwise_append.1 hs).2.1).1 j h2
        omega
  · rintro ⟨hk, hlow⟩
    cases hf : lowestKey s with
    | none => exact absurd (lowestKey_eq_none.1 hf k) (by simp [hk])
    | some k' =>
      have h1 : readKey k' s = true := by simpa using List.find?_some hf
      obtain ⟨-, as, bs, hl, has⟩ := List.find?_eq_some_iff_append.1 hf
      have hge : ¬ k'.toNat < k.toNat := fun h => by simp [hlow k' h] at h1
      have hle : ¬ k.toNat < k'.toNat := by
        intro h
        have hm := scanOrder_complete k
        rw [hl] at hm hs
        rcases List.mem_append.1 hm with h2 | h2
        · exact absurd (has k h2) (by simp [hk])
        · rcases List.mem_cons.1 h2 with h3 | h3
          · exact absurd (h3 ▸ h) (Nat.lt_irrefl _)
          · have := (List.pairwise_cons.1 (List.pairwise_append.1 hs).2.1).1 k h3
            omega
      exact congrArg some (BitVec.eq_of_toNat_eq (by omega))

/-! ## Sprite drawing -/

/-- One pixel drawn: its cell flips when the pixel is on (R201). -/
theorem drawPixel_cell (on : Bool) (px qx : Fin 64) (py qy : Fin 32) (acc : Display × Bool) :
    (drawPixel on px py acc).1.cell qx qy =
      if on = true ∧ qx = px ∧ qy = py then !acc.1.cell qx qy else acc.1.cell qx qy := by
  cases on
  · simp [drawPixel]
  · by_cases h : qx = px ∧ qy = py
    · obtain ⟨rfl, rfl⟩ := h
      simp [drawPixel, Display.cell_setCell]
    · simp [drawPixel, Display.cell_setCell, h]

/-- One pixel drawn sets `hit` when it is on and its cell was 1 (R201). -/
theorem drawPixel_hit (on : Bool) (px : Fin 64) (py : Fin 32) (acc : Display × Bool) :
    (drawPixel on px py acc).2 = true ↔ acc.2 = true ∨ (on = true ∧ acc.1.cell px py = true) := by
  cases on <;> simp [drawPixel]

/-- Some pixel of the first `n` of a sprite row is on and falls on a cell (R201, R202). -/
def rowCovers (row cx : Byte) (py : Fin 32) (n : Nat) (qx : Fin 64) (qy : Fin 32) : Prop :=
  ∃ c, c < n ∧ spritePixel row c = true ∧ qx = pixelColumn cx c ∧ qy = py

/-- The columns of one sprite row fall on distinct display columns, since 8 is at most 64 (R201). -/
theorem pixelColumn_inj {cx : Byte} {c c' : Nat} (hc : c < 8) (hc' : c' < 8) (h : pixelColumn cx c = pixelColumn cx c') :
    c = c' := by
  have := congrArg Fin.val h
  simp [pixelColumn] at this
  omega

/-- The rows of one sprite fall on distinct display rows, since 15 is below 32 (R201). -/
theorem pixelRow_inj {cy : Byte} {r r' : Nat} (hr : r < 16) (hr' : r' < 16) (h : pixelRow cy r = pixelRow cy r') : r = r' := by
  have := congrArg Fin.val h
  simp [pixelRow] at this
  omega

/-- What drawing the first `n` pixels of a row does: the covered cells flip, no other changes, and `hit` is set when a covered
cell was 1 (R201). -/
theorem drawRow_spec (row cx : Byte) (py : Fin 32) {n : Nat} (hn : n ≤ 8) (acc : Display × Bool) :
    (∀ qx qy, rowCovers row cx py n qx qy → (drawRow row cx py n acc).1.cell qx qy = !acc.1.cell qx qy) ∧
    (∀ qx qy, ¬ rowCovers row cx py n qx qy → (drawRow row cx py n acc).1.cell qx qy = acc.1.cell qx qy) ∧
    ((drawRow row cx py n acc).2 = true ↔
      acc.2 = true ∨ ∃ qx qy, rowCovers row cx py n qx qy ∧ acc.1.cell qx qy = true) := by
  induction n with
  | zero => simp [rowCovers, drawRow]
  | succ n ih =>
    obtain ⟨ih1, ih2, ih3⟩ := ih (by omega)
    have fresh : ∀ qy, ¬ rowCovers row cx py n (pixelColumn cx n) qy := by
      rintro qy ⟨c, hc, -, hx, -⟩
      have := pixelColumn_inj (by omega) (by omega) hx
      omega
    have split : ∀ qx qy, rowCovers row cx py (n + 1) qx qy ↔
        rowCovers row cx py n qx qy ∨ (spritePixel row n = true ∧ qx = pixelColumn cx n ∧ qy = py) := by
      intro qx qy
      constructor
      · rintro ⟨c, hc, hrest⟩
        rcases Nat.lt_succ_iff_lt_or_eq.1 hc with h | rfl
        · exact .inl ⟨c, h, hrest⟩
        · exact .inr hrest
      · rintro (⟨c, hc, hrest⟩ | hrest)
        · exact ⟨c, by omega, hrest⟩
        · exact ⟨n, by omega, hrest⟩
    refine ⟨fun qx qy h => ?_, fun qx qy h => ?_, ?_⟩
    · rw [drawRow, drawPixel_cell]
      rcases (split qx qy).1 h with h | ⟨hon, rfl, rfl⟩
      · rw [if_neg, ih1 qx qy h]
        rintro ⟨-, rfl, rfl⟩
        exact fresh _ h
      · rw [if_pos ⟨hon, rfl, rfl⟩, ih2 _ _ (fresh _)]
    · rw [split, not_or] at h
      rw [drawRow, drawPixel_cell, if_neg h.2, ih2 qx qy h.1]
    · rw [drawRow, drawPixel_hit, ih3, ih2 _ _ (fresh py)]
      constructor
      · rintro ((h | ⟨qx, qy, h, hc⟩) | ⟨hon, hc⟩)
        · exact .inl h
        · exact .inr ⟨qx, qy, (split qx qy).2 (.inl h), hc⟩
        · exact .inr ⟨_, _, (split _ _).2 (.inr ⟨hon, rfl, rfl⟩), hc⟩
      · rintro (h | ⟨qx, qy, h, hc⟩)
        · exact .inl (.inl h)
        · rcases (split qx qy).1 h with h | ⟨hon, rfl, rfl⟩
          · exact .inl (.inr ⟨qx, qy, h, hc⟩)
          · exact .inr ⟨hon, hc⟩

/-- Some pixel of the first `n` rows of a sprite is on and falls on a cell (R201). -/
def rowsCover (source : State) (i0 : Addr) (cx cy : Byte) (n : Nat) (qx : Fin 64) (qy : Fin 32) : Prop :=
  ∃ r, r < n ∧ rowCovers (readByte (dataAddr i0 r) source) cx (pixelRow cy r) 8 qx qy

/-- What drawing the first `n` rows of a sprite does: the covered cells flip, no other changes, and `hit` is set when a covered
cell was 1 (R201). -/
theorem drawRows_spec (source : State) (i0 : Addr) (cx cy : Byte) {n : Nat} (hn : n < 16) (acc : Display × Bool) :
    (∀ qx qy, rowsCover source i0 cx cy n qx qy →
      (drawRows source i0 cx cy n acc).1.cell qx qy = !acc.1.cell qx qy) ∧
    (∀ qx qy, ¬ rowsCover source i0 cx cy n qx qy →
      (drawRows source i0 cx cy n acc).1.cell qx qy = acc.1.cell qx qy) ∧
    ((drawRows source i0 cx cy n acc).2 = true ↔
      acc.2 = true ∨ ∃ qx qy, rowsCover source i0 cx cy n qx qy ∧ acc.1.cell qx qy = true) := by
  induction n with
  | zero => simp [rowsCover, drawRows]
  | succ n ih =>
    obtain ⟨ih1, ih2, ih3⟩ := ih (by omega)
    obtain ⟨r1, r2, r3⟩ := drawRow_spec (readByte (dataAddr i0 n) source) cx (pixelRow cy n) (Nat.le_refl 8)
      (drawRows source i0 cx cy n acc)
    have fresh : ∀ qx qy, rowCovers (readByte (dataAddr i0 n) source) cx (pixelRow cy n) 8 qx qy →
        ¬ rowsCover source i0 cx cy n qx qy := by
      rintro qx qy ⟨c, -, -, -, h1⟩ ⟨r, hr, c', -, -, -, h2⟩
      have := pixelRow_inj (by omega) (by omega) (h1.symm.trans h2)
      omega
    have split : ∀ qx qy, rowsCover source i0 cx cy (n + 1) qx qy ↔
        rowsCover source i0 cx cy n qx qy ∨
          rowCovers (readByte (dataAddr i0 n) source) cx (pixelRow cy n) 8 qx qy := by
      intro qx qy
      constructor
      · rintro ⟨r, hr, hrest⟩
        rcases Nat.lt_succ_iff_lt_or_eq.1 hr with h | rfl
        · exact .inl ⟨r, h, hrest⟩
        · exact .inr hrest
      · rintro (⟨r, hr, hrest⟩ | hrest)
        · exact ⟨r, by omega, hrest⟩
        · exact ⟨n, by omega, hrest⟩
    refine ⟨fun qx qy h => ?_, fun qx qy h => ?_, ?_⟩
    · rw [drawRows]
      by_cases hr : rowCovers (readByte (dataAddr i0 n) source) cx (pixelRow cy n) 8 qx qy
      · rw [r1 qx qy hr, ih2 qx qy (fresh qx qy hr)]
      · rw [r2 qx qy hr, ih1 qx qy (((split qx qy).1 h).resolve_right hr)]
    · rw [split, not_or] at h
      rw [drawRows, r2 qx qy h.2, ih2 qx qy h.1]
    · rw [drawRows, r3, ih3]
      constructor
      · rintro ((h | ⟨qx, qy, h, hc⟩) | ⟨qx, qy, h, hc⟩)
        · exact .inl h
        · exact .inr ⟨qx, qy, (split qx qy).2 (.inl h), hc⟩
        · exact .inr ⟨qx, qy, (split qx qy).2 (.inr h), by rwa [ih2 qx qy (fresh qx qy h)] at hc⟩
      · rintro (h | ⟨qx, qy, h, hc⟩)
        · exact .inl (.inl h)
        · by_cases hr : rowCovers (readByte (dataAddr i0 n) source) cx (pixelRow cy n) 8 qx qy
          · exact .inr ⟨qx, qy, hr, by rwa [ih2 qx qy (fresh qx qy hr)]⟩
          · exact .inl (.inr ⟨qx, qy, ((split qx qy).1 h).resolve_right hr, hc⟩)

end Sys2Proof.Machine
end

