-- ==== Sys2Proof/Laws/Frames.lean ====
section
/-! SUPPORT. Frames: what each update changes, how frames compose, what the two write orders leave in VF, and what `Load` and the
other operations keep. -/

namespace Sys2Proof.Machine

variable {s t u : State} {ps qs : List Part}

/-! ## Frames compose -/

theorem agreeOn_refl (p : Part) (s : State) : agreeOn p s s := by
  cases p <;> first | exact rfl | exact fun _ => rfl | exact fun _ _ => rfl

theorem agreeOn_trans {p : Part} (h : agreeOn p s t) (h' : agreeOn p t u) : agreeOn p s u := by
  cases p <;> first
    | exact Eq.trans h' h
    | exact fun k => (h' k).trans (h k)
    | exact fun k j => (h' k j).trans (h k j)

theorem onlyChanges_refl (ps : List Part) (s : State) : onlyChanges ps s s := ⟨rfl, fun p _ => agreeOn_refl p s⟩

theorem onlyChanges_mono (h : onlyChanges ps s t) (hs : ∀ p ∈ ps, p ∈ qs) : onlyChanges qs s t :=
  ⟨h.1, fun p hp => h.2 p fun hm => hp (hs p hm)⟩

theorem onlyChanges_trans (h : onlyChanges ps s t) (h' : onlyChanges ps t u) : onlyChanges ps s u :=
  ⟨h'.1.trans h.1, fun p hp => agreeOn_trans (h.2 p hp) (h'.2 p hp)⟩

/-- States whose fields agree on the parts not listed differ only on the parts listed. -/
theorem onlyChanges_of_fields (hc : t.cfg = s.cfg)
    (hv : Part.regs ∉ ps → t.v = s.v) (hi : Part.i ∉ ps → t.i = s.i) (hp : Part.pc ∉ ps → t.pc = s.pc)
    (hsp : Part.sp ∉ ps → t.sp = s.sp) (hst : Part.stack ∉ ps → t.stack = s.stack) (hdt : Part.dt ∉ ps → t.dt = s.dt)
    (hs : Part.st ∉ ps → t.st = s.st) (hm : Part.mem ∉ ps → t.mem = s.mem) (hd : Part.disp ∉ ps → t.disp = s.disp)
    (hk : Part.keys ∉ ps → t.keys = s.keys) (hn : Part.draws ∉ ps → t.draws = s.draws) : onlyChanges ps s t := by
  refine ⟨hc, fun p h => ?_⟩
  cases p with
  | regs => exact readV_congr (hv h)
  | i => exact hi h
  | pc => exact hp h
  | sp => exact hsp h
  | stack => exact readStack_congr (hst h)
  | dt => exact hdt h
  | st => exact hs h
  | mem => exact readByte_congr (hm h) hc
  | disp => exact readCell_congr (hd h)
  | keys => exact readKey_congr (hk h)
  | draws => exact hn h

/-! ## The two write orders -/

theorem flagByte_toNat (b : Bool) : (flagByte b).toNat = if b = true then 1 else 0 := by cases b <;> rfl

/-- `Vx` then `VF`: VF ends as the flag, V[x] as the result unless it is VF, and no other register changes (R130). -/
theorem readV_writeResultThenFlag (k x : RegIdx) (r : Byte) (f : Bool) (s : State) :
    readV k (writeResultThenFlag x r f s) = if k = vf then flagByte f else if k = x then r else readV k s := by
  simp only [writeResultThenFlag, readV_writeV]

/-- `VF` then `Vx`: V[x] ends as the result, VF as the flag unless it is V[x], and no other register changes (R130). -/
theorem readV_writeFlagThenResult (k x : RegIdx) (r : Byte) (f : Bool) (s : State) :
    readV k (writeFlagThenResult x r f s) = if k = x then r else if k = vf then flagByte f else readV k s := by
  simp only [writeFlagThenResult, readV_writeV]

/-! ## Keys -/

/-- Consuming a key changes nothing or clears that one flag (R220). -/
theorem consumeKey_cases (k : Option KeyIdx) (s : State) :
    consumeKey k s = s ∨ ∃ j, k = some j ∧ consumeKey k s = writeKey j false s := by
  cases k with
  | none => exact .inl rfl
  | some j => exact .inr ⟨j, rfl, rfl⟩

/-! ## Load -/

/-- After the copy of a list, each address it covers reads as its byte, and every other as before (R252). -/
theorem Memory.read_writeList {font : Config.Font} {a b : Nat} {bs : List Byte} {m : Mem} :
    Memory.read font (Memory.writeList font a bs m) b =
      if h : a ≤ b ∧ b < a + bs.length then bs[b - a]'(by omega) else Memory.read font m b := by
  induction bs generalizing a m with
  | nil => simp [Memory.writeList]
  | cons x bs ih =>
    rw [Memory.writeList, ih]
    by_cases h : a + 1 ≤ b ∧ b < a + 1 + bs.length
    · rw [dif_pos h, dif_pos (by simp; omega)]
      have : b - a = (b - (a + 1)) + 1 := by omega
      simp [this]
    · rw [dif_neg h, Memory.read_write]
      by_cases hb : b = a
      · subst hb
        simp
      · rw [if_neg hb, dif_neg (by simp; omega)]

/-! ## Sprites -/

/-- The spec's words for a covered cell and the drawing loop's are the same (R201, R202). -/
theorem spriteCovers_iff (s : State) (cx cy : Byte) (n : Nat) (px : Fin 64) (py : Fin 32) :
    spriteCovers s cx cy n px py ↔ rowsCover s s.i cx cy n px py := by
  unfold spriteCovers rowsCover rowCovers
  constructor
  · rintro ⟨r, c, hr, hc, hx, hy, hb⟩
    refine ⟨r, hr, c, hc, ?_, Fin.ext ?_, Fin.ext ?_⟩
    · simpa [spritePixel, BitVec.getLsbD] using hb
    · simpa [pixelColumn] using hx
    · simpa [pixelRow] using hy
  · rintro ⟨r, hr, c, hc, hb, hx, hy⟩
    refine ⟨r, c, hr, hc, ?_, ?_, ?_⟩
    · rw [hx]; simp [pixelColumn]
    · rw [hy]; simp [pixelRow]
    · simpa [spritePixel, BitVec.getLsbD] using hb

end Sys2Proof.Machine
end

