-- ==== Sys2Proof/Laws/PerInstr.lean ====
section
/-! SUPPORT. Per instruction: the encoded word matches the row of the pattern table that has the instruction's kind
(spec/30_encoding.md R73, R74). -/

namespace Sys2Proof.Laws.PatternMatch

/-- The row of the pattern table at an instruction's kind number carries that kind and matches the instruction's word. -/
def Statement (i : Instr) : Prop :=
  ∃ p, patterns[kindOf i]? = some p ∧ p.kind = kindOf i ∧ p.matchesWord (encode i) = true

theorem sys (nnn : Addr) : Statement (.sys nnn) := ⟨_, rfl, rfl, by simp [Pattern.matchesWord, litMatches, encode]⟩
theorem cls : Statement (.cls) := ⟨_, rfl, rfl, by decide⟩
theorem ret : Statement (.ret) := ⟨_, rfl, rfl, by decide⟩
theorem jp (nnn : Addr) : Statement (.jp nnn) := ⟨_, rfl, rfl, by simp [Pattern.matchesWord, litMatches, encode]⟩
theorem call (nnn : Addr) : Statement (.call nnn) := ⟨_, rfl, rfl, by simp [Pattern.matchesWord, litMatches, encode]⟩
theorem seByte (x : RegIdx) (kk : Byte) : Statement (.seByte x kk) := ⟨_, rfl, rfl, by simp [Pattern.matchesWord, litMatches, encode]⟩
theorem sneByte (x : RegIdx) (kk : Byte) : Statement (.sneByte x kk) := ⟨_, rfl, rfl, by simp [Pattern.matchesWord, litMatches, encode]⟩
theorem seReg (x : RegIdx) (y : RegIdx) : Statement (.seReg x y) := ⟨_, rfl, rfl, by simp [Pattern.matchesWord, litMatches, encode]⟩
theorem ldByte (x : RegIdx) (kk : Byte) : Statement (.ldByte x kk) := ⟨_, rfl, rfl, by simp [Pattern.matchesWord, litMatches, encode]⟩
theorem addByte (x : RegIdx) (kk : Byte) : Statement (.addByte x kk) := ⟨_, rfl, rfl, by simp [Pattern.matchesWord, litMatches, encode]⟩
theorem ldReg (x : RegIdx) (y : RegIdx) : Statement (.ldReg x y) := ⟨_, rfl, rfl, by simp [Pattern.matchesWord, litMatches, encode]⟩
theorem orReg (x : RegIdx) (y : RegIdx) : Statement (.orReg x y) := ⟨_, rfl, rfl, by simp [Pattern.matchesWord, litMatches, encode]⟩
theorem andReg (x : RegIdx) (y : RegIdx) : Statement (.andReg x y) := ⟨_, rfl, rfl, by simp [Pattern.matchesWord, litMatches, encode]⟩
theorem xorReg (x : RegIdx) (y : RegIdx) : Statement (.xorReg x y) := ⟨_, rfl, rfl, by simp [Pattern.matchesWord, litMatches, encode]⟩
theorem addReg (x : RegIdx) (y : RegIdx) : Statement (.addReg x y) := ⟨_, rfl, rfl, by simp [Pattern.matchesWord, litMatches, encode]⟩
theorem subReg (x : RegIdx) (y : RegIdx) : Statement (.subReg x y) := ⟨_, rfl, rfl, by simp [Pattern.matchesWord, litMatches, encode]⟩
theorem shr (x : RegIdx) (y : RegIdx) : Statement (.shr x y) := ⟨_, rfl, rfl, by simp [Pattern.matchesWord, litMatches, encode]⟩
theorem subnReg (x : RegIdx) (y : RegIdx) : Statement (.subnReg x y) := ⟨_, rfl, rfl, by simp [Pattern.matchesWord, litMatches, encode]⟩
theorem shl (x : RegIdx) (y : RegIdx) : Statement (.shl x y) := ⟨_, rfl, rfl, by simp [Pattern.matchesWord, litMatches, encode]⟩
theorem sneReg (x : RegIdx) (y : RegIdx) : Statement (.sneReg x y) := ⟨_, rfl, rfl, by simp [Pattern.matchesWord, litMatches, encode]⟩
theorem ldI (nnn : Addr) : Statement (.ldI nnn) := ⟨_, rfl, rfl, by simp [Pattern.matchesWord, litMatches, encode]⟩
theorem jpV0 (nnn : Addr) : Statement (.jpV0 nnn) := ⟨_, rfl, rfl, by simp [Pattern.matchesWord, litMatches, encode]⟩
theorem rnd (x : RegIdx) (kk : Byte) : Statement (.rnd x kk) := ⟨_, rfl, rfl, by simp [Pattern.matchesWord, litMatches, encode]⟩
theorem drw (x : RegIdx) (y : RegIdx) (n : Nibble) : Statement (.drw x y n) := ⟨_, rfl, rfl, by simp [Pattern.matchesWord, litMatches, encode]⟩
theorem skp (x : RegIdx) : Statement (.skp x) := ⟨_, rfl, rfl, by simp [Pattern.matchesWord, litMatches, encode]⟩
theorem sknp (x : RegIdx) : Statement (.sknp x) := ⟨_, rfl, rfl, by simp [Pattern.matchesWord, litMatches, encode]⟩
theorem ldVxDt (x : RegIdx) : Statement (.ldVxDt x) := ⟨_, rfl, rfl, by simp [Pattern.matchesWord, litMatches, encode]⟩
theorem ldVxKey (x : RegIdx) : Statement (.ldVxKey x) := ⟨_, rfl, rfl, by simp [Pattern.matchesWord, litMatches, encode]⟩
theorem ldDtVx (x : RegIdx) : Statement (.ldDtVx x) := ⟨_, rfl, rfl, by simp [Pattern.matchesWord, litMatches, encode]⟩
theorem ldStVx (x : RegIdx) : Statement (.ldStVx x) := ⟨_, rfl, rfl, by simp [Pattern.matchesWord, litMatches, encode]⟩
theorem addI (x : RegIdx) : Statement (.addI x) := ⟨_, rfl, rfl, by simp [Pattern.matchesWord, litMatches, encode]⟩
theorem ldFont (x : RegIdx) : Statement (.ldFont x) := ⟨_, rfl, rfl, by simp [Pattern.matchesWord, litMatches, encode]⟩
theorem ldBcd (x : RegIdx) : Statement (.ldBcd x) := ⟨_, rfl, rfl, by simp [Pattern.matchesWord, litMatches, encode]⟩
theorem storeRegs (x : RegIdx) : Statement (.storeRegs x) := ⟨_, rfl, rfl, by simp [Pattern.matchesWord, litMatches, encode]⟩
theorem loadRegs (x : RegIdx) : Statement (.loadRegs x) := ⟨_, rfl, rfl, by simp [Pattern.matchesWord, litMatches, encode]⟩

end Sys2Proof.Laws.PatternMatch
end

