-- ==== Sys2Proof/Laws/Words.lean ====
section
/-! SUPPORT. The words of the encoder as numbers, and the nibbles of a word as numbers (spec/30_encoding.md R71, R72). -/

namespace Sys2Proof.Machine

theorem nibble_addr_word (n0 : Nibble) (nnn : Addr) : n0 ++ nnn = wordNnn n0.toNat nnn := by
  apply BitVec.eq_of_toNat_eq
  refine (append_toNat n0 nnn).trans ?_
  have := n0.isLt
  have := nnn.isLt
  simp [wordNnn]
  omega

theorem nibble_reg_byte_word (n0 x : Nibble) (kk : Byte) : n0 ++ x ++ kk = wordXkk n0.toNat x kk := by
  apply BitVec.eq_of_toNat_eq
  refine (append_toNat (n0 ++ x) kk).trans ?_
  rw [append_toNat]
  have := n0.isLt
  have := x.isLt
  have := kk.isLt
  simp [wordXkk]
  omega

theorem nibbles_word (n0 x y n : Nibble) : n0 ++ x ++ y ++ n = wordXyn n0.toNat x y n := by
  apply BitVec.eq_of_toNat_eq
  refine (append_toNat (n0 ++ x ++ y) n).trans ?_
  rw [append_toNat, append_toNat]
  have := n0.isLt
  have := x.isLt
  have := y.isLt
  have := n.isLt
  simp [wordXyn]
  omega

/-- The four nibbles of a word as numbers (R71). -/
theorem nibbles_toNat (w : OpWord) :
    (nib0 w).toNat = w.toNat / 4096 ∧ (nib1 w).toNat = w.toNat / 256 % 16 ∧
    (nib2 w).toNat = w.toNat / 16 % 16 ∧ (nib3 w).toNat = w.toNat % 16 := by
  have := w.isLt
  simp [nib0, nib1, nib2, nib3, BitVec.extractLsb'_toNat, Nat.shiftRight_eq_div_pow]
  omega

end Sys2Proof.Machine
end

