-- ==== Sys2Proof/Tests/Slice0.lean ====
section
/-! SUPPORT. The model's own tests. Expected values come from spec/95_test_vectors.md (the vector's id stands beside each test), from
the encodings of spec/30_encoding.md R73, or from hand calculation with the rule named. The witnesses at the end show, for each
statement with hypotheses, a state and operands that meet them. -/

namespace Sys2Proof.Tests

open Sys2Proof.Machine

/-! ## Small states -/

/-- A word placed at a PC. -/
def placed (pc : Addr) (w : Nat) (s : State) : State := (writePc pc s).withFetchWord 16 w

/-- Registers set one by one. -/
def regs (l : List (RegIdx × Byte)) (s : State) : State := l.foldl (fun s p => writeV p.1 p.2 s) s

/-- Bytes stored from an address up. -/
def bytesAt : Addr → List Byte → State → State
  | _, [], s => s
  | a, b :: bs, s => bytesAt (a + 1) bs (writeByte a b s)

/-- The reset state with other parameters. -/
def withParams (m : Config.SysMode) (consume : Bool) (oor : Config.KeyOor) : State :=
  State.initial { defaultParams with sysMode := m, fx0aConsume := consume, keyOor := oor }

/-- A result is a next state with a property. -/
def answers (r : Result) (p : State → Bool) : Bool :=
  match r with
  | .next s => p s
  | _ => false

/-- The fault of a result. -/
def faultOf (r : Result) : Option Fault :=
  match r with
  | .fault f => some f
  | _ => none

/-- The reset state, in which every test starts. -/
abbrev s0 : State := State.reset

/-! ## WellFormed: an ill-formed term for each check -/

theorem test_wf_sys_0E0_refused : (Instr.sys 0x0E0).wellFormed = false := by decide
theorem test_wf_sys_0EE_refused : (Instr.sys 0x0EE).wellFormed = false := by decide
theorem test_wf_sys_0E1_accepted : (Instr.sys 0x0E1).wellFormed = true := by decide

/-! ## Decoding: a word written out from R73 for every constructor -/

theorem test_decode_control :
    decodeWord 0x0123 = .ok (.sys 0x123) ∧
    decodeWord 0x00E1 = .ok (.sys 0x0E1) ∧
    decodeWord 0x00EE = .ok .ret ∧
    decodeWord 0x1ABC = .ok (.jp 0xABC) ∧
    decodeWord 0x2905 = .ok (.call 0x905) ∧
    decodeWord 0x3C7F = .ok (.seByte 0xC 0x7F) ∧
    decodeWord 0x4105 = .ok (.sneByte 0x1 0x05) ∧
    decodeWord 0x5230 = .ok (.seReg 0x2 0x3) ∧
    decodeWord 0x9AB0 = .ok (.sneReg 0xA 0xB) ∧
    decodeWord 0xB300 = .ok (.jpV0 0x300) := by decide

theorem test_decode_loads_and_logic :
    decodeWord 0x6A42 = .ok (.ldByte 0xA 0x42) ∧
    decodeWord 0x7120 = .ok (.addByte 0x1 0x20) ∧
    decodeWord 0x8120 = .ok (.ldReg 0x1 0x2) ∧
    decodeWord 0x8341 = .ok (.orReg 0x3 0x4) ∧
    decodeWord 0x8562 = .ok (.andReg 0x5 0x6) ∧
    decodeWord 0x8783 = .ok (.xorReg 0x7 0x8) := by decide

theorem test_decode_arithmetic :
    decodeWord 0x89A4 = .ok (.addReg 0x9 0xA) ∧
    decodeWord 0x8BC5 = .ok (.subReg 0xB 0xC) ∧
    decodeWord 0x8DE6 = .ok (.shr 0xD 0xE) ∧
    decodeWord 0x8F07 = .ok (.subnReg 0xF 0x0) ∧
    decodeWord 0x812E = .ok (.shl 0x1 0x2) ∧
    decodeWord 0xC30F = .ok (.rnd 0x3 0x0F) := by decide

theorem test_decode_index_memory :
    decodeWord 0xA123 = .ok (.ldI 0x123) ∧
    decodeWord 0xF31E = .ok (.addI 0x3) ∧
    decodeWord 0xF129 = .ok (.ldFont 0x1) ∧
    decodeWord 0xF433 = .ok (.ldBcd 0x4) ∧
    decodeWord 0xF255 = .ok (.storeRegs 0x2) ∧
    decodeWord 0xFF65 = .ok (.loadRegs 0xF) := by decide

theorem test_decode_display :
    decodeWord 0x00E0 = .ok .cls ∧
    decodeWord 0xD12F = .ok (.drw 0x1 0x2 0xF) ∧
    decodeWord 0xD000 = .ok (.drw 0 0 0) := by decide

theorem test_decode_keys_timers :
    decodeWord 0xE19E = .ok (.skp 0x1) ∧
    decodeWord 0xE2A1 = .ok (.sknp 0x2) ∧
    decodeWord 0xF507 = .ok (.ldVxDt 0x5) ∧
    decodeWord 0xF60A = .ok (.ldVxKey 0x6) ∧
    decodeWord 0xF715 = .ok (.ldDtVx 0x7) ∧
    decodeWord 0xF818 = .ok (.ldStVx 0x8) := by decide

/-- TD9, TD10, TD12, TD14, TD17, TD18, TD21, TD22. -/
theorem test_decode_illegal :
    decodeWord 0x5231 = .illegal ∧
    decodeWord 0x8008 = .illegal ∧
    decodeWord 0x800F = .illegal ∧
    decodeWord 0x9AB1 = .illegal ∧
    decodeWord 0xE19F = .illegal ∧
    decodeWord 0xE00E = .illegal ∧
    decodeWord 0xF066 = .illegal ∧
    decodeWord 0xF0F7 = .illegal := by decide

/-- The most-specific-match rule on the table (R75): `00E0` against `0nnn`, and a word no pattern matches. -/
theorem test_resolve : resolveKind 0x00E0 = some 1 ∧ resolveKind 0x00E1 = some 0 ∧ resolveKind 0x5231 = none := by decide

/-- The ports for an illegal word: fields are presented, `valid` and `kind` are 0 (R78). -/
theorem test_ports_illegal : (decoderPorts 0x5231).valid = false ∧ (decoderPorts 0x5231).kind = 0 ∧
    (decoderPorts 0x5231).x = 0x2 ∧ (decoderPorts 0x5231).kk = 0x31 := by decide

/-- The high byte comes first in memory (R52). -/
theorem test_bytes_high_first : encodeBytes (.call 0x905) = [0x29, 0x05] ∧ tableBytes 16 0x2905 = [0x29, 0x05] := by decide

theorem test_table_word : decodeTableWord 16 0xF265 = some (.loadRegs 2) ∧ decodeTableWord 16 0x5231 = none := by decide

/-! ## One step each -/

/-- TC2. -/
theorem test_sys_nop : answers (step (placed 0x200 0x0123 (withParams .nop true .notPressed)))
    (fun s => s.pc == 0x202) = true := by decide

/-- TC3, S5. -/
theorem test_ret : answers (step (placed 0x905 0x00EE (push 0x202 s0)))
    (fun s => s.sp == 0 && s.pc == 0x202 && readStack 0 s == 0x202) = true := by decide

/-- TC4. -/
theorem test_ret_underflow : answers (step (placed 0x200 0x00EE { s0 with stack := s0.stack.set 15 0x345 }))
    (fun s => s.sp == 15 && s.pc == 0x345) = true := by decide

/-- TC24. -/
theorem test_jp_odd_fetch_wraps : answers (step (bytesAt 0xFFF [0x12, 0x34] (writePc 0xFFF s0)))
    (fun s => s.pc == 0x234) = true := by decide

/-- TC8. -/
theorem test_call : answers (step (placed 0x200 0x2905 s0))
    (fun s => readStack 0 s == 0x202 && s.sp == 1 && s.pc == 0x905) = true := by decide

/-- TC9. -/
theorem test_call_wraps : answers (step (placed 0xFFE 0x2ABC { s0 with sp := 15, stack := s0.stack.set 15 0x777 }))
    (fun s => readStack 15 s == 0 && s.sp == 0 && s.pc == 0xABC) = true := by decide

/-- TC13. -/
theorem test_se_byte_wraps : answers (step (placed 0xFFC 0x3042 (regs [(0, 0x42)] s0)))
    (fun s => s.pc == 0x000) = true := by decide

/-- TC12. -/
theorem test_se_byte_not : answers (step (placed 0x200 0x3042 (regs [(0, 0x41)] s0)))
    (fun s => s.pc == 0x202) = true := by decide

/-- TC16. -/
theorem test_sne_byte : answers (step (placed 0x200 0x4042 s0))
    (fun s => s.pc == 0x204) = true := by decide

/-- TC15. -/
theorem test_sne_byte_not : answers (step (placed 0x200 0x4042 (regs [(0, 0x42)] s0)))
    (fun s => s.pc == 0x202) = true := by decide

/-- TC17. -/
theorem test_se_reg : answers (step (placed 0x200 0x5120 (regs [(1, 3), (2, 3)] s0)))
    (fun s => s.pc == 0x204) = true := by decide

/-- TC20. -/
theorem test_sne_reg : answers (step (placed 0x200 0x9120 (regs [(1, 3), (2, 4)] s0)))
    (fun s => s.pc == 0x204) = true := by decide

/-- TC19. -/
theorem test_sne_reg_not : answers (step (placed 0x200 0x9120 (regs [(1, 3), (2, 3)] s0)))
    (fun s => s.pc == 0x202) = true := by decide

/-- TC23. -/
theorem test_jp_v0_wraps : answers (step (placed 0x200 0xBFFF (regs [(0, 0xFF)] s0)))
    (fun s => s.pc == 0x0FE) = true := by decide

/-- TA1. -/
theorem test_ld_byte_vf : answers (step (placed 0x200 0x6FAA s0))
    (fun s => readV 15 s == 0xAA && s.pc == 0x202) = true := by decide

/-- TA4. -/
theorem test_add_byte : answers (step (placed 0x200 0x7120 (regs [(1, 0xF0)] s0)))
    (fun s => readV 1 s == 0x10 && readV 15 s == 1) = true := by decide

/-- TA6. -/
theorem test_add_byte_vf : answers (step (placed 0x200 0x7F01 (regs [(15, 0xFF)] s0)))
    (fun s => readV 15 s == 1) = true := by decide

/-- TA8. -/
theorem test_ld_reg : answers (step (placed 0x200 0x8120 (regs [(2, 0x77)] s0)))
    (fun s => readV 1 s == 0x77) = true := by decide

/-- S1. -/
theorem test_or_keeps_vf : answers (step (placed 0x200 0x8011 (regs [(0, 0xF0), (1, 0x0F), (15, 0x55)] s0)))
    (fun s => readV 0 s == 0xFF && readV 15 s == 0x55) = true := by decide

/-- S1. -/
theorem test_and : answers (step (placed 0x200 0x8012 (regs [(0, 0xF0), (1, 0x3C)] s0)))
    (fun s => readV 0 s == 0x30) = true := by decide

/-- S1. -/
theorem test_xor : answers (step (placed 0x200 0x8013 (regs [(0, 0xF0), (1, 0x3C)] s0)))
    (fun s => readV 0 s == 0xCC) = true := by decide

/-- S2. -/
theorem test_add_reg : answers (step (placed 0x200 0x8014 (regs [(0, 0xFA), (1, 0x09)] s0)))
    (fun s => readV 0 s == 0x03 && readV 15 s == 1) = true := by decide

/-- TA10. -/
theorem test_add_reg_old_vf : answers (step (placed 0x200 0x80F4 (regs [(0, 0xFA), (15, 0x09)] s0)))
    (fun s => readV 0 s == 0x03 && readV 15 s == 1) = true := by decide

/-- S3. -/
theorem test_sub : answers (step (placed 0x200 0x8015 (regs [(0, 0x03), (1, 0x05)] s0)))
    (fun s => readV 0 s == 0xFE && readV 15 s == 0) = true := by decide

/-- TA15. -/
theorem test_sub_vf : answers (step (placed 0x200 0x8F05 (regs [(15, 0x03), (0, 0x05)] s0)))
    (fun s => readV 15 s == 0) = true := by decide

/-- TA20. -/
theorem test_shr_ignores_vy : answers (step (placed 0x200 0x8016 (regs [(0, 0x02), (1, 0x99)] s0)))
    (fun s => readV 0 s == 0x01 && readV 15 s == 0) = true := by decide

/-- TA18. -/
theorem test_shr_vf : answers (step (placed 0x200 0x8F06 (regs [(15, 0x02)] s0)))
    (fun s => readV 15 s == 1) = true := by decide

/-- TA22. -/
theorem test_subn : answers (step (placed 0x200 0x8017 (regs [(0, 0x05), (1, 0x03)] s0)))
    (fun s => readV 0 s == 0xFE && readV 15 s == 0) = true := by decide

/-- TA24. -/
theorem test_subn_vf : answers (step (placed 0x200 0x8F17 (regs [(15, 0x05), (1, 0x25)] s0)))
    (fun s => readV 15 s == 0x20) = true := by decide

/-- TA25. -/
theorem test_shl : answers (step (placed 0x200 0x801E (regs [(0, 0x81)] s0)))
    (fun s => readV 0 s == 0x02 && readV 15 s == 1) = true := by decide

/-- TA28. -/
theorem test_shl_vf : answers (step (placed 0x200 0x8F0E (regs [(15, 0x40)] s0)))
    (fun s => readV 15 s == 0x80) = true := by decide

/-- TI2. -/
theorem test_ld_i : answers (step (placed 0x200 0xAFFF s0))
    (fun s => s.i == 0xFFF && s.pc == 0x202) = true := by decide

/-- TI4. -/
theorem test_add_i_wraps : answers (step (placed 0x200 0xF01E (regs [(0, 0x02)] (writeI 0xFFF s0))))
    (fun s => s.i == 0x001 && readV 15 s == 0) = true := by decide

/-- TI10. -/
theorem test_ld_font_no_mask : answers (step (placed 0x200 0xF029 (regs [(0, 0xFF)] s0)))
    (fun s => s.i == 0x4FB) = true := by decide

/-- S9. -/
theorem test_bcd : answers (step (placed 0x200 0xF033 (regs [(0, 0x91)] (writeI 0x300 s0))))
    (fun s => readByte 0x300 s == 1 && readByte 0x301 s == 4 && readByte 0x302 s == 5 && s.i == 0x300) = true := by decide

/-- TI14. -/
theorem test_bcd_wraps : answers (step (placed 0x200 0xF033 (regs [(0, 0xFF)] (writeI 0xFFE s0))))
    (fun s => readByte 0xFFE s == 2 && readByte 0xFFF s == 5 && readByte 0 s == 5) = true := by decide

/-- TI17. -/
theorem test_store_wraps : answers (step (placed 0x200 0xF355 (regs [(0, 1), (1, 2), (2, 3), (3, 4)] (writeI 0xFFE s0))))
    (fun s => readByte 0xFFE s == 1 && readByte 0xFFF s == 2 && readByte 0 s == 3 && readByte 1 s == 4 && s.i == 0xFFE) = true := by decide

/-- TI16. -/
theorem test_store_one : answers (step (placed 0x200 0xF055 (regs [(0, 0x9A), (1, 0x77)] (writeI 0x300 s0))))
    (fun s => readByte 0x300 s == 0x9A && readByte 0x301 s == 0) = true := by decide

/-- TI21. -/
theorem test_load_font : answers (step (placed 0x200 0xF165 s0))
    (fun s => readV 0 s == 0xF0 && readV 1 s == 0x90 && readV 2 s == 0) = true := by decide

/-- TI22. -/
theorem test_load_own_word : answers (step (placed 0x300 0xF265 (bytesAt 0x302 [0x33] (writeI 0x300 s0))))
    (fun s => readV 0 s == 0xF2 && readV 1 s == 0x65 && readV 2 s == 0x33 && s.pc == 0x302) = true := by decide

/-- TG1. -/
theorem test_cls : answers (step (placed 0x200 0x00E0 { s0 with disp := (s0.disp.setCell 63 31 true).setCell 0 0 true }))
    (fun s => !readCell 0 0 s && !readCell 63 31 s) = true := by decide

/-- TG3. -/
theorem test_drw_wraps : answers (step (placed 0x200 0xD011 (bytesAt 0x300 [0xF0] (regs [(0, 62), (1, 31)] (writeI 0x300 s0)))))
    (fun s => readCell 62 31 s && readCell 63 31 s && readCell 0 31 s && readCell 1 31 s && !readCell 2 31 s && readV 15 s == 0) = true := by decide

/-- S6. -/
theorem test_drw_collision : answers (step (placed 0x200 0xD011 (bytesAt 0x300 [0xF0] (writeI 0x300 { s0 with disp := s0.disp.setCell 1 0 true }))))
    (fun s => readCell 0 0 s && !readCell 1 0 s && readCell 2 0 s && readV 15 s == 1) = true := by decide

/-- TK1. -/
theorem test_skp : answers (step (placed 0x202 0xE09E (writeKey 7 true (regs [(0, 7)] s0))))
    (fun s => s.pc == 0x206 && !readKey 7 s) = true := by decide

/-- TK6. -/
theorem test_skp_low_nibble : answers (step (placed 0x200 0xE09E (writeKey 3 true (regs [(0, 0x13)] (withParams .illegal true .lowNibble)))))
    (fun s => s.pc == 0x204 && !readKey 3 s) = true := by decide

/-- TK4. -/
theorem test_sknp_pressed : answers (step (placed 0x200 0xE0A1 (writeKey 7 true (regs [(0, 7)] s0))))
    (fun s => s.pc == 0x202 && readKey 7 s) = true := by decide

/-- TK7. -/
theorem test_sknp_above_15 : answers (step (placed 0x200 0xE0A1 (writeKey 3 true (regs [(0, 0x13)] s0))))
    (fun s => s.pc == 0x204) = true := by decide

/-- TK10. -/
theorem test_wait_binds_lowest : answers (step (placed 0x200 0xF00A (writeKey 9 true (writeKey 7 true s0))))
    (fun s => readV 0 s == 7 && !readKey 7 s && readKey 9 s && s.pc == 0x202) = true := by decide

/-- TK11. -/
theorem test_wait_not_consumed : answers (step (placed 0x200 0xF00A (writeKey 7 true (withParams .illegal false .notPressed))))
    (fun s => readV 0 s == 7 && readKey 7 s && s.pc == 0x202) = true := by decide

/-- TK13. -/
theorem test_ld_vx_dt : answers (step (placed 0x200 0xF507 (writeDt 0x3C s0)))
    (fun s => readV 5 s == 0x3C && s.dt == 0x3C) = true := by decide

/-- TK14. -/
theorem test_ld_dt_vx : answers (step (placed 0x200 0xF515 (regs [(5, 0x3C)] s0)))
    (fun s => s.dt == 0x3C && s.st == 0) = true := by decide

/-- TK15. -/
theorem test_ld_st_vx : answers (step (placed 0x200 0xF218 (regs [(2, 0x10)] s0)))
    (fun s => s.st == 0x10 && s.dt == 0) = true := by decide

/-- TK9: the key wait with no key latched leaves the whole state as it is. -/
theorem test_wait_changes_nothing :
    exec (.ldVxKey 0) s0 = .next s0 := by rfl

/-- TA29: the random byte under the mask, for the draw A5. -/
theorem test_rnd_draw : answers (stepWith 0xA5 (placed 0x200 0xC30F s0))
    (fun s => readV 3 s == 0x05 && s.pc == 0x202) = true := by decide

/-- R142: with `kk = 0` the result is 0, whatever the free byte is. -/
theorem test_rnd_zero_mask : ∃ t, step (placed 0x200 0xC000 (regs [(0, 0x77)] s0)) = .next t ∧ readV 0 t = 0 :=
  ⟨_, rfl, BitVec.and_zero⟩

/-! ## Errors and host operations -/

/-- TE1. -/
theorem test_illegal_word : faultOf (step (placed 0x200 0x5231 s0)) = some (.illegalOpcode 0x5231 0x200) := by decide

/-- TC1. -/
theorem test_sys_illegal : faultOf (step (placed 0x200 0x0123 s0)) = some (.illegalOpcode 0x0123 0x200) := by decide

/-- TE6: after reset, with nothing loaded, the word at 0x200 is 0000. -/
theorem test_reset_step : faultOf (step s0) = some (.illegalOpcode 0x0000 0x200) := by decide

/-- TK16, TK18. -/
theorem test_timer_tick : (timerTick (writeDt 0x01 s0)).dt = 0 ∧ (timerTick (writeDt 0x01 s0)).st = 0 ∧
    (timerTick (writeDt 0xFF s0)).dt = 0xFE := by decide

/-- S11: the last byte of memory can be loaded, and no load wraps. -/
theorem test_load_edges : answers (load [0x12] 0xFFF s0) (fun s => readByte 0xFFF s == 0x12) = true ∧
    faultOf (load [0x12, 0x34] 0xFFF s0) = some (.loadOverflow 0xFFF 2) ∧
    answers (load [] 0x1000 s0) (fun s => s.mem == []) = true ∧
    faultOf (load [] 0x1001 s0) = some (.loadOverflow 0x1001 0) := by decide

/-- R280: Reset erases what was written. -/
theorem test_reset_erases : (resetMachine (regs [(3, 9)] (writeByte 0x300 7 s0))).mem = [] ∧
    readV 3 (resetMachine (regs [(3, 9)] s0)) = 0 := by decide

/-- R37: the first and last glyphs of the default font, and "4" at 0x014. -/
theorem test_default_font : readByte 0x000 s0 = 0xF0 ∧ readByte 0x001 s0 = 0x90 ∧ readByte 0x014 s0 = 0x90 ∧
    readByte 0x016 s0 = 0xF0 ∧ readByte 0x04B s0 = 0xF0 ∧ readByte 0x04F s0 = 0x80 ∧ readByte 0x050 s0 = 0 := by decide

/-- R228 and spec/95 section 2.6: 0.010 s is too early, 0.020 s ticks. -/
theorem test_tick_if_due : tickIfDue timerIntervalDefault (1 / 100) 0 s0 = (s0, 0) ∧
    tickIfDue timerIntervalDefault (1 / 50) 0 s0 = (timerTick s0, 1 / 50) := by
  constructor
  · rw [tickIfDue, if_neg (by norm_num [timerIntervalDefault])]
  · rw [tickIfDue, if_pos (by norm_num [timerIntervalDefault])]

/-- Writing what an address would read as anyway leaves no entry: memory stays canonical. -/
theorem test_memory_canonical : (writeByte 0x300 0 (writeByte 0x300 5 s0)).mem = [] ∧
    (writeByte 0x000 0xF0 s0).mem = [] ∧ (writeByte 0x200 1 (writeByte 0x300 2 s0)).mem = [(0x200, 1), (0x300, 2)] := by decide

/-! ## Witnesses: for each statement with hypotheses, a state and operands that meet them -/

theorem witness_DecodeOfEncode : (Instr.sys 0xFFF).wellFormed = true ∧ (Instr.drw 15 15 15).wellFormed = true := by decide

theorem witness_EncodeOfDecode : decodeWord 0x0FFF = .ok (.sys 0xFFF) ∧ decodeWord 0xFF65 = .ok (.loadRegs 15) := by decide

theorem witness_DecoderRule : decodeWord 0x8FFE = .ok (.shl 15 15) ∧ decodeWord 0x8FFF = .illegal := by decide

theorem witness_Ports : decodeWord 0x00EE = .ok .ret ∧ decodeWord 0xFFFF = .illegal := by decide

theorem witness_StepRuns_ok :
    decodeBytes [readByte 0xFFF (placed 0xFFF 0x1234 s0), readByte (0xFFF + 1) (placed 0xFFF 0x1234 s0)] =
      .ok (.jp 0x234) [] := by decide

theorem witness_StepRuns_illegal :
    decodeBytes [readByte 0x200 (placed 0x200 0xFFFF s0), readByte 0x201 (placed 0x200 0xFFFF s0)] =
      .error (.illegalWord 0xFFFF) := by decide

theorem witness_TwoErrors : faultOf (applyMove (.step 0) (placed 0xFFF 0x5231 s0)) = some (.illegalOpcode 0x5231 0xFFF) ∧
    faultOf (applyMove (.step 0) s0) = some (.illegalOpcode 0 0x200) ∧
    faultOf (applyMove (.load [0] 0x1000) s0) = some (.loadOverflow 0x1000 1) := by decide

theorem witness_Completes : (withParams .nop true .notPressed).cfg.sysMode = .nop ∧ ∀ nnn, Instr.cls ≠ .sys nnn :=
  ⟨rfl, fun _ => Instr.noConfusion⟩

theorem witness_SafeStep : decodeWord (fetchWord (placed 0x200 0x00E0 s0)) = .ok .cls ∧
    answers (step (placed 0x200 0x00E0 s0)) (fun _ => true) = true := by decide

theorem witness_SelfJump : fetchWord (placed 0xFFF 0x1FFF s0) = wordNnn 0x1 (placed 0xFFF 0x1FFF s0).pc := by decide

theorem witness_Sys : (0x0E1#12 ≠ 0x0E0#12 ∧ 0x0E1#12 ≠ 0x0EE#12) ∧ s0.cfg.sysMode = .illegal ∧
    (withParams .nop true .notPressed).cfg.sysMode = .nop := by decide

theorem witness_Call_other_entry : (15 : BitVec 4) ≠ s0.sp := by decide

theorem witness_ByteSkips : readV 15 (regs [(15, 0xFF)] s0) = 0xFF ∧ readV 15 s0 ≠ 0xFF := by decide

theorem witness_RegisterSkips : readV 0 s0 = readV 15 s0 ∧ readV 0 (regs [(0, 1)] s0) ≠ readV 15 (regs [(0, 1)] s0) := by decide

theorem witness_FlagWriters : (0 : RegIdx) ≠ vf ∧ (14 : RegIdx) ≠ vf ∧ (15 : RegIdx) = vf := by decide

theorem witness_Rnd : fetchWord (placed 0x200 0xCFFF s0) = wordXkk 0xC 0xF 0xFF := by decide

theorem witness_StepWithADraw : decodeWord (fetchWord (placed 0x200 0x00E0 s0)) = .ok .cls ∧
    decodeWord (fetchWord (placed 0x200 0xC0FF s0)) = .ok (.rnd 0 0xFF) := by decide

theorem witness_DataAddresses : dataAddr 0xFFF 15 = dataAddr 0xFFF 15 ∧ dataAddr 0xFFF 15 = 0x00E ∧
    dataAddr 0xFFF 0 ≠ dataAddr 0xFFF 15 := by decide

theorem witness_Bcd_other_byte : (0x303 : Addr) ≠ dataAddr 0x300 0 ∧ (0x303 : Addr) ≠ dataAddr 0x300 1 ∧
    (0x303 : Addr) ≠ dataAddr 0x300 2 := by decide

theorem witness_Store : (15#4).toNat ≤ (15#4).toNat ∧
    ∀ k : RegIdx, k.toNat ≤ (15#4).toNat → (0x310 : Addr) ≠ dataAddr 0x300 k.toNat := by decide

theorem witness_Load : (0#4).toNat ≤ (0#4).toNat ∧ (0#4).toNat < (15#4).toNat := by decide

theorem witness_StoreThenLoad : ∃ u t : State, exec (.storeRegs 15) s0 = .next t ∧ u.i = t.i ∧
    ∀ a, readByte a u = readByte a t := ⟨_, _, rfl, rfl, fun _ => rfl⟩

theorem witness_StoredWord : 1 ≤ (1#4).toNat ∧ (writePc 0xFFE s0).i.toNat = ((writePc 0xFFE s0).pc.toNat + 2) % 4096 := by decide

theorem witness_Drw_covered : spriteCovers s0 63 31 5 63 31 ∧ spriteCovers s0 63 31 5 2 31 ∧
    ¬ spriteCovers s0 63 31 0 63 31 :=
  ⟨⟨0, 0, by decide, by decide, by decide, by decide, by decide⟩,
    ⟨0, 3, by decide, by decide, by decide, by decide, by decide⟩, fun ⟨_, _, h, _⟩ => absurd h (Nat.not_lt_zero _)⟩

theorem witness_Drw_hit : readCell 63 31 { s0 with disp := s0.disp.setCell 63 31 true } = true ∧
    ∀ px py, readCell px py s0 = false := by
  refine ⟨by decide, fun px py => ?_⟩
  simp [readCell, Display.cell, State.reset, State.initial]

theorem witness_DrawingTwice : (0 : RegIdx) ≠ vf ∧ (1 : RegIdx) ≠ vf := by decide

theorem witness_KeyOf : keyOf .lowNibble 15 = some 15 ∧ keyOf .notPressed 16 = none ∧ keyOf .lowNibble 16 = some 0 ∧
    keyOf .lowNibble 255 = some 15 := by decide

theorem witness_KeyOf_none : keyPressed none (writeKey 15 true s0) = false ∧
    consumeKey none (writeKey 15 true s0) = writeKey 15 true s0 := by decide

theorem witness_Skp_pressed : keyOf s0.cfg.keyOor (readV 0 (regs [(0, 15)] s0)) = some 15 ∧
    readKey 15 (writeKey 15 true (regs [(0, 15)] s0)) = true := by decide

theorem witness_Skp_not : (∀ k, keyOf s0.cfg.keyOor (readV 0 s0) = some k → readKey k s0 = false) ∧
    keyOf s0.cfg.keyOor 16 = none := by decide

theorem witness_KeyWait : (∀ k, readKey k s0 = false) ∧ readKey 15 (writeKey 15 true s0) = true ∧
    ∀ j : KeyIdx, j.toNat < (15#4).toNat → readKey j (writeKey 15 true s0) = false := by decide

theorem witness_TickIfDue : (0 : Rat) < timerIntervalDefault ∧ timerIntervalDefault ≤ 1 / 60 - 0 ∧
    (1 : Rat) / 61 - 0 < timerIntervalDefault := by norm_num [timerIntervalDefault]

theorem witness_OnlyInputSet : readKey 15 s0 = false ∧ readKey 15 (afterMove (.inputSet 15 true) s0) = true := by decide

theorem witness_Load_bounds : 4096 < 4095 + [0x12#8, 0x34#8].length ∧ 4094 + [0x12#8, 0x34#8].length ≤ 4096 := by decide

theorem witness_Reset : ∃ t, applyMove .reset (regs [(1, 1)] s0) = .next t := ⟨_, rfl⟩

theorem witness_Footprint : answers (exec (.ldBcd 15) s0) (fun _ => true) = true ∧ mayWriteReg (.loadRegs 14) 15 = false ∧
    ¬ storesTo (.ldBcd 15) s0 3 := by
  refine ⟨by decide, by decide, ?_⟩
  rintro ⟨k, hk, h⟩
  have : k = 0 ∨ k = 1 ∨ k = 2 := by omega
  rcases this with rfl | rfl | rfl <;> exact absurd h (by decide)

theorem witness_CanonicalStep : (placed 0x200 0xF055 s0).Inv ∧
    answers (step (placed 0x200 0xF055 s0)) (fun _ => true) = true := by
  refine ⟨?_, by decide⟩
  unfold State.Inv
  decide

theorem witness_Interleaving : (runMoves [.load [0x00, 0xE0] 0x200, .step 0, .timerTick] s0).pc = 0x202 ∧ s0.Inv := by
  refine ⟨by decide, ?_⟩
  unfold State.Inv
  decide

theorem witness_PcEven : (placed 0x200 0x1FFE s0).EvenPc ∧ evenTarget (.jp 0xFFE) (placed 0x200 0x1FFE s0) ∧
    decodeWord (fetchWord (placed 0x200 0x1FFE s0)) = .ok (.jp 0xFFE) ∧
    answers (step (placed 0x200 0x1FFE s0)) (fun t => t.pc == 0xFFE) = true := by
  refine ⟨⟨by decide, by decide⟩, ?_, by decide, by decide⟩
  show 0xFFE % 2 = 0
  decide

theorem witness_Inputs : decodeWord (fetchWord (placed 0x200 0xF015 s0)) = .ok (.ldDtVx 0) ∧ readsInputs (.ldDtVx 0) = false := by
  decide

end Sys2Proof.Tests
end

section
/-! SUPPORT. What each named update may change, as frames that compose: an instruction's footprint is read off the updates its
meaning is built from. -/

namespace Sys2Proof.Machine

variable {ps : List Part} {s t u : State}

/-! ## Frames as an equivalence -/

theorem agreeOn_symm {p : Part} (h : agreeOn p s t) : agreeOn p t s := by
  cases p with
  | regs | stack | mem | keys => exact fun k => (h k).symm
  | disp => exact fun px py => (h px py).symm
  | i | pc | sp | dt | st | draws => exact Eq.symm h

theorem onlyChanges_symm (h : onlyChanges ps s t) : onlyChanges ps t s := ⟨h.1.symm, fun p hp => agreeOn_symm (h.2 p hp)⟩

/-- An update inside the parts listed makes no difference to a frame. -/
theorem onlyChanges_iff_of_frame (h : onlyChanges ps t u) : onlyChanges ps s u ↔ onlyChanges ps s t :=
  ⟨fun hu => onlyChanges_trans hu (onlyChanges_symm h), fun ht => onlyChanges_trans ht h⟩

@[simp] theorem onlyChanges_self : onlyChanges ps s s := onlyChanges_refl ps s

/-! ## Frames of the updates -/

@[simp] theorem onlyChanges_writeV {x : RegIdx} {b : Byte} (hp : Part.regs ∈ ps) :
    onlyChanges ps s (writeV x b t) ↔ onlyChanges ps s t :=
  onlyChanges_iff_of_frame (by apply onlyChanges_of_fields <;> simp [hp])

@[simp] theorem onlyChanges_writeI {a : Addr} (hp : Part.i ∈ ps) :
    onlyChanges ps s (writeI a t) ↔ onlyChanges ps s t :=
  onlyChanges_iff_of_frame (by apply onlyChanges_of_fields <;> simp [hp])

@[simp] theorem onlyChanges_writeDt {b : Byte} (hp : Part.dt ∈ ps) :
    onlyChanges ps s (writeDt b t) ↔ onlyChanges ps s t :=
  onlyChanges_iff_of_frame (by apply onlyChanges_of_fields <;> simp [hp])

@[simp] theorem onlyChanges_writeSt {b : Byte} (hp : Part.st ∈ ps) :
    onlyChanges ps s (writeSt b t) ↔ onlyChanges ps s t :=
  onlyChanges_iff_of_frame (by apply onlyChanges_of_fields <;> simp [hp])

@[simp] theorem onlyChanges_writePc {a : Addr} (hp : Part.pc ∈ ps) :
    onlyChanges ps s (writePc a t) ↔ onlyChanges ps s t :=
  onlyChanges_iff_of_frame (by apply onlyChanges_of_fields <;> simp [hp])

@[simp] theorem onlyChanges_advance (hp : Part.pc ∈ ps) :
    onlyChanges ps s (advance t) ↔ onlyChanges ps s t := onlyChanges_writePc hp

@[simp] theorem onlyChanges_skipIf {taken : Bool} (hp : Part.pc ∈ ps) :
    onlyChanges ps s (skipIf taken t) ↔ onlyChanges ps s t := onlyChanges_writePc hp

@[simp] theorem onlyChanges_push {a : Addr} (hs : Part.stack ∈ ps) (hp : Part.sp ∈ ps) :
    onlyChanges ps s (push a t) ↔ onlyChanges ps s t :=
  onlyChanges_iff_of_frame (by apply onlyChanges_of_fields <;> simp [hs, hp])

@[simp] theorem onlyChanges_pop (hp : Part.sp ∈ ps) :
    onlyChanges ps s (pop t) ↔ onlyChanges ps s t :=
  onlyChanges_iff_of_frame (by apply onlyChanges_of_fields <;> simp [hp])

@[simp] theorem onlyChanges_writeByte {a : Addr} {b : Byte} (hp : Part.mem ∈ ps) :
    onlyChanges ps s (writeByte a b t) ↔ onlyChanges ps s t :=
  onlyChanges_iff_of_frame (by apply onlyChanges_of_fields <;> simp [hp])

@[simp] theorem onlyChanges_writeDisplay {d : Display} (hp : Part.disp ∈ ps) :
    onlyChanges ps s (writeDisplay d t) ↔ onlyChanges ps s t :=
  onlyChanges_iff_of_frame (by apply onlyChanges_of_fields <;> simp [hp])

@[simp] theorem onlyChanges_writeKey {k : KeyIdx} {b : Bool} (hp : Part.keys ∈ ps) :
    onlyChanges ps s (writeKey k b t) ↔ onlyChanges ps s t :=
  onlyChanges_iff_of_frame (by apply onlyChanges_of_fields <;> simp [hp])

@[simp] theorem onlyChanges_countDraw (hp : Part.draws ∈ ps) :
    onlyChanges ps s (countDraw t) ↔ onlyChanges ps s t :=
  onlyChanges_iff_of_frame (by apply onlyChanges_of_fields <;> simp [hp])

/-! ## Frames of the composed operations -/

@[simp] theorem onlyChanges_writeResultThenFlag {x : RegIdx} {r : Byte} {f : Bool} (hp : Part.regs ∈ ps) :
    onlyChanges ps s (writeResultThenFlag x r f t) ↔ onlyChanges ps s t :=
  (onlyChanges_writeV hp).trans (onlyChanges_writeV hp)

@[simp] theorem onlyChanges_writeFlagThenResult {x : RegIdx} {r : Byte} {f : Bool} (hp : Part.regs ∈ ps) :
    onlyChanges ps s (writeFlagThenResult x r f t) ↔ onlyChanges ps s t :=
  (onlyChanges_writeV hp).trans (onlyChanges_writeV hp)

@[simp] theorem onlyChanges_randomEffect {r : Byte} {x : RegIdx} {kk : Byte} (hr : Part.regs ∈ ps) (hp : Part.pc ∈ ps) :
    onlyChanges ps s (randomEffect r x kk t) ↔ onlyChanges ps s t :=
  (onlyChanges_advance hp).trans (onlyChanges_writeV hr)

@[simp] theorem onlyChanges_consumeKey {k : Option KeyIdx} (hp : Part.keys ∈ ps) :
    onlyChanges ps s (consumeKey k t) ↔ onlyChanges ps s t := by
  cases k with
  | none => rfl
  | some j => exact onlyChanges_writeKey hp

@[simp] theorem onlyChanges_storeLoop {regs : State} {i0 : Addr} {n : Nat} (hp : Part.mem ∈ ps) :
    onlyChanges ps s (storeLoop regs i0 n t) ↔ onlyChanges ps s t := by
  induction n with
  | zero => rfl
  | succ n ih => exact (onlyChanges_writeByte hp).trans ih

@[simp] theorem onlyChanges_loadLoop {source : State} {i0 : Addr} {n : Nat} (hp : Part.regs ∈ ps) :
    onlyChanges ps s (loadLoop source i0 n t) ↔ onlyChanges ps s t := by
  induction n with
  | zero => rfl
  | succ n ih => exact (onlyChanges_writeV hp).trans ih

end Sys2Proof.Machine
end

section
/-! SUPPORT. What the three meanings with more than one outcome can do: SYS, SKP and LD Vx, K. -/

namespace Sys2Proof.Machine

variable {s t : State}

/-- A `SYS` that completes moves PC alone (R101). -/
theorem execSys_eq_next {nnn : Addr} (h : execSys nnn s = .next t) : s.cfg.sysMode = .nop ∧ t = advance s := by
  unfold execSys at h
  split at h
  · cases h
  · next hm => exact ⟨hm, (Host.Outcome.next.inj h).symm⟩

/-- `SKP` consumes the pressed key and skips, or does neither (R220). -/
theorem execSkp_eq_next {x : RegIdx} (h : execSkp x s = .next t) :
    (keyPressed (keyOfReg x s) s = true ∧ t = skipIf true (consumeKey (keyOfReg x s) s)) ∨
    (keyPressed (keyOfReg x s) s = false ∧ t = advance s) := by
  simp only [execSkp] at h
  split at h
  · next hk => exact .inl ⟨hk, (Host.Outcome.next.inj h).symm⟩
  · next hk => exact .inr ⟨eq_false_of_ne_true hk, (Host.Outcome.next.inj h).symm⟩

/-- `LD Vx, K` waits, or binds the lowest key and leaves it, or binds it and consumes it (R223). -/
theorem execLdVxKey_eq_next {x : RegIdx} (h : execLdVxKey x s = .next t) :
    (lowestKey s = none ∧ t = s) ∨
    ∃ k, lowestKey s = some k ∧
      ((s.cfg.fx0aConsume = false ∧ t = advance (writeV x (k.setWidth 8) s)) ∨
        (s.cfg.fx0aConsume = true ∧ t = advance (writeKey k false (writeV x (k.setWidth 8) s)))) := by
  unfold execLdVxKey at h
  split at h
  · next hk => exact .inl ⟨hk, (Host.Outcome.next.inj h).symm⟩
  · next k hk =>
    refine .inr ⟨k, hk, ?_⟩
    cases hc : s.cfg.fx0aConsume <;> simp_all

end Sys2Proof.Machine
end

section
/-! SUPPORT. The footprint of every instruction: the parts, the general registers and the bytes it may write
(spec/10_state.md R22 to R33, spec/20_memory.md R54). -/

namespace Sys2Proof.Machine

variable {i : Instr} {s t : State}

@[simp] theorem readByte_advance (a : Addr) (s : State) : readByte a (advance s) = readByte a s := rfl

/-- Each meaning is a chain of updates, and each update is inside the parts the instruction may write. -/
theorem exec_onlyChanges (h : exec i s = .next t) : onlyChanges (writesParts i) s t := by
  cases i
  case sys nnn =>
    obtain ⟨-, rfl⟩ := execSys_eq_next h
    simp [writesParts]
  case skp x =>
    obtain ⟨-, rfl⟩ | ⟨-, rfl⟩ := execSkp_eq_next h <;> simp [writesParts]
  case ldVxKey x =>
    obtain ⟨-, rfl⟩ | ⟨k, -, ⟨-, rfl⟩ | ⟨-, rfl⟩⟩ := execLdVxKey_eq_next h <;> simp [writesParts]
  all_goals
    cases h
    simp [writesParts]

/-- An instruction that may write no register keeps them by its frame; the others write the registers of the "written by" column
(R22, R23). -/
theorem exec_keeps_other_regs {k : RegIdx} (h : exec i s = .next t) (hk : mayWriteReg i k = false) :
    readV k t = readV k s := by
  cases i
  case ldVxKey x =>
    obtain ⟨-, rfl⟩ | ⟨k, -, ⟨-, rfl⟩ | ⟨-, rfl⟩⟩ := execLdVxKey_eq_next h <;> simp_all [mayWriteReg, readV_writeV]
  case loadRegs x =>
    cases h
    have : ¬ k.toNat < x.toNat + 1 := by simpa [mayWriteReg, Nat.lt_succ_iff] using hk
    rw [readV_advance, readV_loadLoop _ _ _ x.isLt, if_neg this]
  case addByte | addReg | subReg | shr | subnReg | shl =>
    cases h
    simp_all [mayWriteReg, readV_writeResultThenFlag, readV_writeFlagThenResult]
  case ldByte | ldReg | orReg | andReg | xorReg | rnd | drw | ldVxDt =>
    cases h
    simp_all [mayWriteReg, readV_writeV, randomEffect]
  all_goals exact (exec_onlyChanges h).2 .regs (by simp [writesParts]) k

/-- The two stores write from I up and no further; every other instruction keeps memory by its frame (R54). -/
theorem exec_keeps_other_bytes {a : Addr} (h : exec i s = .next t) (ha : ¬ storesTo i s a) :
    readByte a t = readByte a s := by
  cases i
  case ldBcd x =>
    cases h
    have hne : ∀ k ≤ 2, a ≠ dataAddr s.i k := fun k hk e => ha ⟨k, hk, e⟩
    simp [readByte_writeByte, hne]
  case storeRegs x =>
    cases h
    exact (readByte_storeLoop s s.i a x.isLt s).2 fun k hk e => ha ⟨k, Nat.le_of_lt_succ hk, e⟩
  all_goals exact (exec_onlyChanges h).2 .mem (by simp [writesParts]) a

/-- Settles O53: the frame of the parts is read off the updates of each meaning, and within the registers and the memory the
few instructions that write them are looked at one by one. -/
theorem everyInstructionKeepsItsFootprint : Obligations.EveryInstructionKeepsItsFootprint :=
  fun _ _ _ h => ⟨exec_onlyChanges h, fun _ => exec_keeps_other_regs h, fun _ => exec_keeps_other_bytes h⟩

end Sys2Proof.Machine
end

section
/-! SUPPORT. PC and the stack stay even (spec/10_state.md R26): where an instruction leaves PC, and which entries it writes. -/

namespace Sys2Proof.Machine

variable {i : Instr} {s t u : State} {a : Addr}

/-! ## Where PC goes -/

/-- PC itself, the following word, or the one after: where an instruction that neither jumps nor returns leaves PC (R8, R100). -/
def pcMovesOn (s : State) (a : Addr) : Prop := a = s.pc ∨ a = nextAddr s ∨ a = skipAddr s

/-- The addresses an instruction may leave in PC: its target, the popped entry, or one of the next words (R102 to R104, R109). -/
def pcAfter (i : Instr) (s : State) (a : Addr) : Prop :=
  match i with
  | .jp nnn | .call nnn => a = nnn
  | .jpV0 nnn => a = zext12 (readV 0#4 s) + nnn
  | .ret => a = readStack (s.sp - 1#4) s
  | _ => pcMovesOn s a

theorem pcMovesOn_advance (h : u.pc = s.pc) : pcMovesOn s (advance u).pc := by
  simp [pcMovesOn, nextAddr, h]

theorem pcMovesOn_skipIf (taken : Bool) (h : u.pc = s.pc) : pcMovesOn s (skipIf taken u).pc := by
  cases taken <;> simp [pcMovesOn, nextAddr, skipAddr, h]

@[simp] theorem consumeKey_pc (k : Option KeyIdx) (s : State) : (consumeKey k s).pc = s.pc := by cases k <;> rfl

@[simp] theorem storeLoop_pc (regs : State) (i0 : Addr) (n : Nat) (s : State) : (storeLoop regs i0 n s).pc = s.pc := by
  rw [storeLoop_eq]

@[simp] theorem loadLoop_pc (source : State) (i0 : Addr) (n : Nat) (s : State) : (loadLoop source i0 n s).pc = s.pc := by
  rw [loadLoop_eq]

/-- Every meaning but a jump, a call or a return ends by moving PC on, or waits. -/
theorem exec_pcAfter (h : exec i s = .next t) : pcAfter i s t.pc := by
  cases i
  case jp | call | jpV0 | ret =>
    cases h
    rfl
  case seByte | sneByte | seReg | sneReg | sknp =>
    cases h
    exact pcMovesOn_skipIf _ rfl
  case sys nnn =>
    obtain ⟨-, rfl⟩ := execSys_eq_next h
    exact pcMovesOn_advance rfl
  case skp x =>
    obtain ⟨-, rfl⟩ | ⟨-, rfl⟩ := execSkp_eq_next h
    · exact pcMovesOn_skipIf _ (consumeKey_pc _ s)
    · exact pcMovesOn_advance rfl
  case ldVxKey x =>
    obtain ⟨-, rfl⟩ | ⟨k, -, ⟨-, rfl⟩ | ⟨-, rfl⟩⟩ := execLdVxKey_eq_next h
    · exact .inl rfl
    · exact pcMovesOn_advance rfl
    · exact pcMovesOn_advance rfl
  case rnd x kk =>
    cases h
    exact pcMovesOn_advance (u := writeV x _ s) rfl
  all_goals
    cases h
    exact pcMovesOn_advance (by simp [writeResultThenFlag, writeFlagThenResult])

/-! ## Evenness -/

theorem even_of_pcMovesOn (hpc : s.pc.toNat % 2 = 0) (h : pcMovesOn s a) : a.toNat % 2 = 0 := by
  have hn := nextAddr_toNat s
  have hk := skipAddr_toNat s
  obtain rfl | rfl | rfl := h
  · exact hpc
  · omega
  · omega

theorem even_of_pcAfter (hs : s.EvenPc) (he : evenTarget i s) (h : pcAfter i s a) : a.toNat % 2 = 0 := by
  obtain ⟨hpc, hstack⟩ := hs
  cases i
  case jp | call =>
    obtain rfl := h
    exact he
  case jpV0 nnn =>
    obtain rfl := h
    have : ((readV 0#4 s).toNat + nnn.toNat) % 2 = 0 := he
    simp [zext12]
    omega
  case ret =>
    obtain rfl := h
    exact hstack _
  all_goals exact even_of_pcMovesOn hpc h

/-- No instruction writes a stack entry but `CALL`, which writes the address of the following word (R27, R28). -/
theorem exec_readStack (h : exec i s = .next t) (j : BitVec 4) :
    readStack j t = readStack j s ∨ readStack j t = nextAddr s := by
  cases i
  case call nnn =>
    cases h
    rw [readStack_congr (writePc_stack _ _), readStack_push]
    split
    · exact .inr rfl
    · exact .inl rfl
  all_goals exact .inl ((exec_onlyChanges h).2 .stack (by simp [writesParts]) j)

theorem exec_keeps_evenPc (hs : s.EvenPc) (he : evenTarget i s) (h : exec i s = .next t) : t.EvenPc := by
  refine ⟨even_of_pcAfter hs he (exec_pcAfter h), fun j => ?_⟩
  obtain e | e := exec_readStack h j
  · rw [e]
    exact hs.2 j
  · rw [e]
    exact even_of_pcMovesOn hs.1 (.inr (.inl rfl))

theorem step_of_decode (h : decodeWord (fetchWord s) = .ok i) : step s = exec i s := by
  simp only [step, h]

/-- Settles O57: an even PC moves on by two or four, and the only address pushed is the following word's, so with an even target PC
and every entry stay even; the stack's evenness is what `RET` needs. -/
theorem stepKeepsPcEven : Obligations.StepKeepsPcEven :=
  fun _ _ _ hs hd he h => exec_keeps_evenPc hs he (step_of_decode hd ▸ h)

end Sys2Proof.Machine
end

section
/-! SUPPORT. The values after construction and `Reset` (spec/10_state.md R36, spec/70_reset_and_hazards.md R280, R281). -/

namespace Sys2Proof.Machine

variable (p : Config.Params)

@[simp] theorem readV_initial (k : RegIdx) : readV k (State.initial p) = 0 := by
  simp [readV, State.initial]

@[simp] theorem readStack_initial (j : BitVec 4) : readStack j (State.initial p) = 0 := by
  simp [readStack, State.initial]

@[simp] theorem readKey_initial (k : KeyIdx) : readKey k (State.initial p) = false := by
  simp [readKey, State.initial]

@[simp] theorem readCell_initial (px : Fin 64) (py : Fin 32) : readCell px py (State.initial p) = false :=
  blankDisplay_cell px py

/-- With no byte written memory reads as the font and 0 above it (R36). -/
theorem readByte_initial (a : Addr) : readByte a (State.initial p) = Memory.background p.font a.toNat := rfl

theorem initial_inv : (State.initial p).Inv := rfl

theorem initial_evenPc : (State.initial p).EvenPc :=
  ⟨(by decide : resetPc.toNat % 2 = 0), fun j => by simp⟩

/-- Settles O52: `Reset` always answers, and its state is the constructed one but for the count of draws, which no read sees. -/
theorem resetValuesAreTheSpecs : Obligations.ResetValuesAreTheSpecs := by
  refine fun s => ⟨⟨resetMachine s, rfl⟩, fun t ht => ?_⟩
  obtain ⟨n, rfl⟩ : ∃ n, t = { State.initial s.cfg with draws := n } := by
    obtain h | h := ht
    · exact ⟨s.draws, (Host.Outcome.next.inj h).symm⟩
    · exact ⟨0, h⟩
  refine ⟨readV_initial s.cfg, rfl, rfl, rfl, readStack_initial s.cfg, rfl, rfl, fun a h => ?_, fun a h => ?_,
    readCell_initial s.cfg, readKey_initial s.cfg⟩
  · exact (readByte_initial s.cfg a).trans (dif_pos h)
  · exact (readByte_initial s.cfg a).trans (dif_neg (Nat.not_lt.2 h))

/-- Settles O55: reset memory lists no byte, and the empty list is canonical. -/
theorem resetMemoryIsCanonical : Obligations.ResetMemoryIsCanonical := ⟨initial_inv _, initial_inv⟩

/-- Settles O58: PC is 0x200 and every entry 0 after reset. -/
theorem resetPcIsEven : Obligations.ResetPcIsEven := ⟨initial_evenPc _, initial_evenPc⟩

end Sys2Proof.Machine
end

section
/-! SUPPORT. Fetch reads the two bytes at PC as memory holds them now (spec/20_memory.md R52, R61). -/

namespace Sys2Proof.Machine

variable {s t : State} {x : RegIdx}

/-! ## Fetch -/

/-- The following address as a number (R52). -/
theorem ofNat_toNat_add_one (a : Addr) : BitVec.ofNat 12 ((a.toNat + 1) % 4096) = a + 1#12 :=
  BitVec.eq_of_toNat_eq (by simp)

/-- Settles O8: the fetched word is two bytes put together, the one at PC above, and an address adds modulo 4096. -/
theorem fetchPutsTheByteAtPcFirst : Obligations.FetchPutsTheByteAtPcFirst := by
  intro s
  rw [ofNat_toNat_add_one]
  exact wordOfBytes_toNat (readByte s.pc s) (readByte (s.pc + 1#12) s)

/-! ## A store ahead of PC -/

/-- `LD [I], Vx` leaves register `k`, for each `k` up to `x`, at byte `k` (R174). -/
theorem readByte_of_exec_storeRegs (h : exec (.storeRegs x) s = .next t) {k : RegIdx} (hk : k.toNat ≤ x.toNat) :
    readByte (dataAddr s.i k.toNat) t = readV k s := by
  cases h
  rw [readByte_advance, (readByte_storeLoop s s.i _ x.isLt s).1 k.toNat (Nat.lt_succ_of_le hk) rfl, BitVec.ofNat_toNat,
    BitVec.setWidth_eq]

/-- `LD [I], Vx` moves PC to the following word (R174). -/
theorem pc_of_exec_storeRegs (h : exec (.storeRegs x) s = .next t) : t.pc = nextAddr s := by
  cases h
  simp [nextAddr]

/-- With I at the following word, V0 and V1 are stored on the two bytes that the next fetch reads (R61). -/
theorem fetchWord_of_exec_storeRegs (h : exec (.storeRegs x) s = .next t) (hx : 1 ≤ x.toNat) (hi : s.i = nextAddr s) :
    fetchWord t = wordOfBytes (readV 0#4 s) (readV 1#4 s) := by
  have hpc : t.pc = s.i := (pc_of_exec_storeRegs h).trans hi.symm
  have hi0 : s.i = dataAddr s.i 0 := (BitVec.add_zero s.i).symm
  have h0 : readByte s.i t = readV 0#4 s := hi0 ▸ readByte_of_exec_storeRegs h (k := 0#4) (Nat.zero_le _)
  have h1 : readByte (s.i + 1#12) t = readV 1#4 s := readByte_of_exec_storeRegs h (k := 1#4) hx
  rw [fetchWord, hpc, h0, h1]

/-- Settles O39: fetch looks at memory as the store left it, and the stored bytes are those at the new PC. -/
theorem storedWordIsFetchedNext : Obligations.StoredWordIsFetchedNext := by
  intro x s hx hi
  have hnext : s.i = nextAddr s := BitVec.eq_of_toNat_eq (hi.trans (nextAddr_toNat s).symm)
  refine ⟨_, rfl, ?_⟩
  rw [fetchWord_of_exec_storeRegs rfl hx hnext, wordOfBytes_toNat]

end Sys2Proof.Machine
end

section
/-! SUPPORT. The decoder and the encoder invert each other, and the decoder is the resolution of the pattern table
(spec/30_encoding.md R71 to R79). -/

namespace Sys2Proof

variable {w : OpWord} {i : Instr} {p : Pattern}

/-! ## Decoding an encoded instruction -/

/-- `0nnn` is `SYS` but for the two words of `CLS` and `RET` (R75). -/
theorem decodeGroup0_sys {nnn : Addr} (h0 : nnn ≠ 0x0E0#12) (hE : nnn ≠ 0x0EE#12) :
    decodeGroup0 (nnn.extractLsb' 8 4) (nnn.extractLsb' 4 4) (nnn.extractLsb' 0 4) = .ok (.sys nnn) := by
  have hj := join_addr nnn
  unfold decodeGroup0
  rw [if_neg, if_neg, hj]
  · rintro ⟨h1, h2, h3⟩
    rw [h1, h2, h3] at hj
    exact hE hj.symm
  · rintro ⟨h1, h2, h3⟩
    rw [h1, h2, h3] at hj
    exact h0 hj.symm

/-- The cases are the forms of R73: the address forms, the byte forms, the register forms, and the forms of `8`, `E` and `F`. -/
theorem decodeWord_encode (h : i.wellFormed = true) : decodeWord (encode i) = .ok i := by
  cases i
  case sys nnn =>
    simp only [Instr.wellFormed, Bool.and_eq_true, bne_iff_ne] at h
    obtain ⟨h0, hE⟩ := h
    simp [encode, decodeWord, decodeNibbles, decodeGroup0_sys h0 hE]
  case cls | ret => rfl
  case jp | call | ldI | jpV0 => simp [encode, decodeWord, decodeNibbles]
  case seByte | sneByte | ldByte | addByte | rnd => simp [encode, decodeWord, decodeNibbles]
  case seReg | sneReg | drw => simp [encode, decodeWord, decodeNibbles]
  case ldReg | orReg | andReg | xorReg | addReg | subReg | shr | subnReg | shl =>
    simp [encode, decodeWord, decodeNibbles, decodeGroup8]
  case skp | sknp => simp [encode, decodeWord, decodeNibbles, decodeGroupE]
  case ldVxDt | ldVxKey | ldDtVx | ldStVx | addI | ldFont | ldBcd | storeRegs | loadRegs =>
    simp [encode, decodeWord, decodeNibbles, decodeGroupF]

/-- Settles O1: each form's fields are read back from where the encoder put them, and the two bytes put together are the
word. -/
theorem decodeOfEncodeIsTheInstruction : Obligations.DecodeOfEncodeIsTheInstruction := by
  intro i rest h
  refine ⟨decodeWord_encode h, (decodeBytes_word (encode i) rest).trans ?_⟩
  rw [decodeWord_encode h]

/-! ## Encoding a decoded word -/

/-- Whatever four nibbles decode to is well-formed and encodes back to them. The decoder's arms are taken by what they read: the
groups of `0`, `8`, `E` and `F`, then the forms `nnn`, `xkk`, `xyn` and `xy0` (R73). -/
theorem decodeNibbles_ok {a b c d : Nibble} (h : decodeNibbles a b c d = .ok i) :
    i.wellFormed = true ∧ encode i = a ++ b ++ c ++ d := by
  unfold decodeNibbles at h
  split at h
  case h_1 ha =>
    obtain rfl := eq_ofNat_of_toNat ha
    exact decodeGroup0_ok h
  case h_9 ha =>
    obtain rfl := eq_ofNat_of_toNat ha
    exact decodeGroup8_ok h
  case h_15 ha =>
    obtain rfl := eq_ofNat_of_toNat ha
    exact assoc_byte 0xE#4 b c d ▸ decodeGroupE_ok h
  case h_16 =>
    have ha : a.toNat = 0xF := by
      simp only [imp_false] at *
      omega
    obtain rfl := eq_ofNat_of_toNat ha
    exact assoc_byte 0xF#4 b c d ▸ decodeGroupF_ok h
  case h_2 ha | h_3 ha | h_11 ha | h_12 ha =>
    obtain rfl := eq_ofNat_of_toNat ha
    cases h
    exact ⟨rfl, assoc_addr _ b c d⟩
  case h_4 ha | h_5 ha | h_7 ha | h_8 ha | h_13 ha =>
    obtain rfl := eq_ofNat_of_toNat ha
    cases h
    exact ⟨rfl, assoc_byte _ b c d⟩
  case h_14 ha =>
    obtain rfl := eq_ofNat_of_toNat ha
    cases h
    exact ⟨rfl, rfl⟩
  case h_6 ha | h_10 ha =>
    obtain rfl := eq_ofNat_of_toNat ha
    obtain ⟨rfl, h⟩ := (ite_eq_iff.1 h).resolve_right (by simp)
    cases h
    exact ⟨rfl, rfl⟩

theorem wellFormed_of_decodeWord (h : decodeWord w = .ok i) : i.wellFormed = true := (decodeNibbles_ok h).1

theorem encode_of_decodeWord (h : decodeWord w = .ok i) : encode i = w :=
  (decodeNibbles_ok h).2.trans (word_eq_nibbles w).symm

/-- Settles O2: each arm of the decoder keeps all four nibbles of its word, as literals or in the operands. -/
theorem encodeOfDecodeIsTheWord : Obligations.EncodeOfDecodeIsTheWord :=
  fun _ _ h => ⟨wellFormed_of_decodeWord h, encode_of_decodeWord h⟩

/-! ## The rows that match a word -/

@[simp] theorem litMatches_none (n : Nibble) : litMatches none n = true := rfl

@[simp] theorem litMatches_some (l n : Nibble) : litMatches (some l) n = true ↔ n = l :=
  beq_iff_eq.trans eq_comm

/-- A row stands for an instruction when it carries its kind, or is the row of `SYS` below the words of `CLS` and `RET`: these
are the only two words with two matching rows (R75). -/
def Pattern.standsFor (p : Pattern) (i : Instr) : Prop :=
  p.kind = kindOf i ∨ p.kind = 0 ∧ (i = .cls ∨ i = .ret)

/-- The decoder's answer on a word that the row of `SYS` matches (R75). -/
theorem decodeGroup0_standsFor (b c d : Nibble) :
    ∃ i, decodeGroup0 b c d = .ok i ∧ (⟨0, some 0, none, none, none⟩ : Pattern).standsFor i := by
  unfold decodeGroup0
  split_ifs
  · exact ⟨_, rfl, .inr ⟨rfl, .inl rfl⟩⟩
  · exact ⟨_, rfl, .inr ⟨rfl, .inr rfl⟩⟩
  · exact ⟨_, rfl, .inl rfl⟩

/-- The literals of a matching row lead the decoder to the row's own arm; in the row of `SYS` that arm has two exceptions. -/
theorem decodeNibbles_of_matchesWord (a b c d : Nibble) :
    ∀ p ∈ patterns, p.matchesWord (a ++ b ++ c ++ d) = true → ∃ i, decodeNibbles a b c d = .ok i ∧ p.standsFor i := by
  simp only [patterns, patternsLow, patternsMid, patternsHigh, List.cons_append, List.nil_append, List.forall_mem_cons,
    List.not_mem_nil, false_imp_iff, implies_true, Pattern.matchesWord, nib0_nibbles, nib1_nibbles, nib2_nibbles,
    nib3_nibbles, litMatches_none, litMatches_some, Bool.and_eq_true, and_true, and_imp, true_imp_iff]
  refine ⟨?sys, ?others⟩
  case sys =>
    rintro rfl
    exact decodeGroup0_standsFor b c d
  case others =>
    and_intros
    all_goals
      intros
      subst_vars
      exact ⟨_, rfl, .inl rfl⟩

theorem decodeWord_of_matchesWord (hp : p ∈ patterns) (h : p.matchesWord w = true) :
    ∃ i, decodeWord w = .ok i ∧ p.standsFor i :=
  decodeNibbles_of_matchesWord _ _ _ _ p hp (word_eq_nibbles w ▸ h)

/-- Every instruction's word matches the row of its kind (R73, R74). -/
theorem row_matches_encode : ∀ i : Instr, Laws.PatternMatch.Statement i
  | .sys nnn => Laws.PatternMatch.sys nnn
  | .cls => Laws.PatternMatch.cls
  | .ret => Laws.PatternMatch.ret
  | .jp nnn => Laws.PatternMatch.jp nnn
  | .call nnn => Laws.PatternMatch.call nnn
  | .seByte x kk => Laws.PatternMatch.seByte x kk
  | .sneByte x kk => Laws.PatternMatch.sneByte x kk
  | .seReg x y => Laws.PatternMatch.seReg x y
  | .ldByte x kk => Laws.PatternMatch.ldByte x kk
  | .addByte x kk => Laws.PatternMatch.addByte x kk
  | .ldReg x y => Laws.PatternMatch.ldReg x y
  | .orReg x y => Laws.PatternMatch.orReg x y
  | .andReg x y => Laws.PatternMatch.andReg x y
  | .xorReg x y => Laws.PatternMatch.xorReg x y
  | .addReg x y => Laws.PatternMatch.addReg x y
  | .subReg x y => Laws.PatternMatch.subReg x y
  | .shr x y => Laws.PatternMatch.shr x y
  | .subnReg x y => Laws.PatternMatch.subnReg x y
  | .shl x y => Laws.PatternMatch.shl x y
  | .sneReg x y => Laws.PatternMatch.sneReg x y
  | .ldI nnn => Laws.PatternMatch.ldI nnn
  | .jpV0 nnn => Laws.PatternMatch.jpV0 nnn
  | .rnd x kk => Laws.PatternMatch.rnd x kk
  | .drw x y n => Laws.PatternMatch.drw x y n
  | .skp x => Laws.PatternMatch.skp x
  | .sknp x => Laws.PatternMatch.sknp x
  | .ldVxDt x => Laws.PatternMatch.ldVxDt x
  | .ldVxKey x => Laws.PatternMatch.ldVxKey x
  | .ldDtVx x => Laws.PatternMatch.ldDtVx x
  | .ldStVx x => Laws.PatternMatch.ldStVx x
  | .addI x => Laws.PatternMatch.addI x
  | .ldFont x => Laws.PatternMatch.ldFont x
  | .ldBcd x => Laws.PatternMatch.ldBcd x
  | .storeRegs x => Laws.PatternMatch.storeRegs x
  | .loadRegs x => Laws.PatternMatch.loadRegs x

/-- A decoded word matches the row of its kind (R73, R74). -/
theorem row_of_decodeWord (h : decodeWord w = .ok i) :
    ∃ q ∈ patterns, q.kind = kindOf i ∧ q.matchesWord w = true := by
  obtain ⟨q, hq, hk, hm⟩ := row_matches_encode i
  exact ⟨q, List.mem_of_getElem? hq, hk, encode_of_decodeWord h ▸ hm⟩

/-! ## The most specific match -/

theorem le_maxSpecificity {l : List Pattern} (h : p ∈ l) : p.specificity ≤ maxSpecificity l := by
  induction l with
  | nil => cases h
  | cons q l ih =>
    obtain rfl | h := List.mem_cons.1 h
    · exact Nat.le_max_left _ _
    · exact (ih h).trans (Nat.le_max_right _ _)

theorem maxSpecificity_le {l : List Pattern} {n : Nat} (h : ∀ p ∈ l, p.specificity ≤ n) : maxSpecificity l ≤ n := by
  induction l with
  | nil => exact Nat.zero_le n
  | cons q l ih =>
    obtain ⟨hq, hl⟩ := List.forall_mem_cons.1 h
    exact Nat.max_le.2 ⟨hq, ih hl⟩

/-- The kinds number the rows in order (R83). -/
theorem patterns_map_kind : patterns.map Pattern.kind = List.range 35 := rfl

theorem patterns_nodup : patterns.Nodup :=
  .of_map Pattern.kind (patterns_map_kind ▸ List.nodup_range)

theorem eq_of_kind_eq {q : Pattern} (hp : p ∈ patterns) (hq : q ∈ patterns) (h : p.kind = q.kind) : p = q :=
  List.inj_on_of_nodup_map (patterns_map_kind ▸ List.nodup_range) hp hq h

/-- A matching row above every other matching row is the one that R75 resolves to. -/
theorem resolveKind_of_best {q : Pattern} (hq : q ∈ patterns) (hw : q.matchesWord w = true)
    (hbest : ∀ p ∈ patterns, p.matchesWord w = true → p = q ∨ p.specificity < q.specificity) :
    resolveKind w = some q.kind := by
  set m := patterns.filter (·.matchesWord w) with hm
  have hqm : q ∈ m := List.mem_filter.2 ⟨hq, hw⟩
  have hbest' : ∀ p ∈ m, p = q ∨ p.specificity < q.specificity := fun p hp =>
    hbest p (List.mem_filter.1 hp).1 (List.mem_filter.1 hp).2
  have hmax : maxSpecificity m = q.specificity := by
    refine le_antisymm (maxSpecificity_le fun p hp => ?_) (le_maxSpecificity hqm)
    obtain rfl | hlt := hbest' p hp
    · exact le_rfl
    · exact hlt.le
  have hsingle : m.filter (·.specificity == maxSpecificity m) = [q] := by
    rw [hmax]
    refine List.perm_singleton.1 ((List.perm_ext_iff_of_nodup ((patterns_nodup.filter _).filter _) (List.nodup_singleton q)).2
      fun p => ?_)
    rw [List.mem_filter, beq_iff_eq, List.mem_singleton]
    constructor
    · rintro ⟨hp, he⟩
      exact (hbest' p hp).resolve_right he.not_lt
    · rintro rfl
      exact ⟨hqm, rfl⟩
  simp [resolveKind, ← hm, hsingle]

theorem specificity_of_kind_sys : ∀ p ∈ patterns, p.kind = 0 → p.specificity = 1 := by decide

theorem specificity_of_kind_cls_ret : ∀ p ∈ patterns, p.kind = 1 ∨ p.kind = 2 → p.specificity = 4 := by decide

/-- A row that stands for an instruction is the row of its kind, or less specific (R75). -/
theorem Pattern.standsFor.eq_or_lt {q : Pattern} (h : p.standsFor i) (hp : p ∈ patterns) (hq : q ∈ patterns)
    (hk : q.kind = kindOf i) : p = q ∨ p.specificity < q.specificity := by
  obtain h | ⟨h0, h⟩ := h
  · exact .inl (eq_of_kind_eq hp hq (h.trans hk.symm))
  · have hq12 : q.kind = 1 ∨ q.kind = 2 := by
      obtain rfl | rfl := h
      · exact .inl hk
      · exact .inr hk
    rw [specificity_of_kind_sys p hp h0, specificity_of_kind_cls_ret q hq hq12]
    exact .inr (by decide)

theorem resolveKind_of_decodeWord (h : decodeWord w = .ok i) : resolveKind w = some (kindOf i) := by
  obtain ⟨q, hq, hk, hw⟩ := row_of_decodeWord h
  refine hk ▸ resolveKind_of_best hq hw fun p hp hpw => ?_
  obtain ⟨j, hj, hstands⟩ := decodeWord_of_matchesWord hp hpw
  obtain rfl : j = i := Decoded.ok.inj (hj.symm.trans h)
  exact hstands.eq_or_lt hp hq hk

theorem resolveKind_of_no_match (h : ∀ p ∈ patterns, p.matchesWord w = false) : resolveKind w = none := by
  have hm : patterns.filter (·.matchesWord w) = [] := List.filter_eq_nil_iff.2 fun p hp => by simp [h p hp]
  simp [resolveKind, hm]

theorem no_match_of_illegal (h : decodeWord w = .illegal) : ∀ p ∈ patterns, p.matchesWord w = false := by
  intro p hp
  by_contra hw
  obtain ⟨i, hi, -⟩ := decodeWord_of_matchesWord hp (by simpa using hw)
  cases h.symm.trans hi

/-- Settles O3: the row of the decoded kind matches, and any other matching row is that of `SYS`, which is less specific; an
illegal word matches no row. -/
theorem decoderIsTheMostSpecificMatchRule : Obligations.DecoderIsTheMostSpecificMatchRule :=
  fun _ => ⟨fun _ h => resolveKind_of_decodeWord h, fun h => resolveKind_of_no_match (no_match_of_illegal h)⟩

/-- Settles O4: a word that decodes resolves to the row of its kind, and no row matches an illegal word. -/
theorem noWordHasTwoBestPatterns : Obligations.NoWordHasTwoBestPatterns := by
  refine fun w => ⟨fun hnone => ?_, resolveKind_of_no_match⟩
  cases hd : decodeWord w with
  | ok i => cases hnone.symm.trans (resolveKind_of_decodeWord hd)
  | illegal => exact no_match_of_illegal hd

/-! ## The illegal words -/

theorem decodeGroup0_ne_illegal (b c d : Nibble) : decodeGroup0 b c d ≠ .illegal := by
  obtain ⟨i, hi, -⟩ := decodeGroup0_standsFor b c d
  simp [hi]

theorem decodeGroup8_eq_illegal_iff (x y d : Nibble) :
    decodeGroup8 x y d = .illegal ↔ d.toNat ∈ [0x8, 0x9, 0xA, 0xB, 0xC, 0xD, 0xF] := by
  have hd := d.isLt
  unfold decodeGroup8
  split
  case h_10 =>
    simp only [imp_false] at *
    simp
    omega
  all_goals simp [*]

theorem decodeGroupE_eq_illegal_iff (x : Nibble) (kk : Byte) :
    decodeGroupE x kk = .illegal ↔ kk.toNat ∉ [0x9E, 0xA1] := by
  unfold decodeGroupE
  split <;> simp_all

theorem decodeGroupF_eq_illegal_iff (x : Nibble) (kk : Byte) :
    decodeGroupF x kk = .illegal ↔ kk.toNat ∉ [0x07, 0x0A, 0x15, 0x18, 0x1E, 0x29, 0x33, 0x55, 0x65] := by
  unfold decodeGroupF
  split <;> simp_all

/-- The five rows of R79's table, on the nibbles. -/
theorem decodeNibbles_eq_illegal_iff (a b c d : Nibble) : decodeNibbles a b c d = .illegal ↔
    (a.toNat = 0x5 ∧ d.toNat ≠ 0) ∨
    (a.toNat = 0x8 ∧ d.toNat ∈ [0x8, 0x9, 0xA, 0xB, 0xC, 0xD, 0xF]) ∨
    (a.toNat = 0x9 ∧ d.toNat ≠ 0) ∨
    (a.toNat = 0xE ∧ (c ++ d).toNat ∉ [0x9E, 0xA1]) ∨
    (a.toNat = 0xF ∧ (c ++ d).toNat ∉ [0x07, 0x0A, 0x15, 0x18, 0x1E, 0x29, 0x33, 0x55, 0x65]) := by
  unfold decodeNibbles
  split
  case h_1 ha => simp [ha, decodeGroup0_ne_illegal]
  case h_6 ha | h_10 ha => simp [ha, BitVec.toNat_eq]
  case h_9 ha => simp [ha, decodeGroup8_eq_illegal_iff]
  case h_15 ha => simp [ha, decodeGroupE_eq_illegal_iff]
  case h_16 =>
    have ha : a.toNat = 0xF := by
      simp only [imp_false] at *
      omega
    simp [ha, decodeGroupF_eq_illegal_iff]
  case h_2 ha | h_3 ha | h_4 ha | h_5 ha | h_7 ha | h_8 ha | h_11 ha | h_12 ha | h_13 ha | h_14 ha => simp [ha]

theorem fieldKk_toNat (w : OpWord) : (fieldKk w).toNat = w.toNat % 256 := by simp [fieldKk, BitVec.extractLsb'_toNat]

theorem fieldNnn_toNat (w : OpWord) : (fieldNnn w).toNat = w.toNat % 4096 := by simp [fieldNnn, BitVec.extractLsb'_toNat]

/-- Settles O5: the arms of the decoder that answer `Illegal` are the rows of the table, and nibbles and last byte are the
quotients and remainders that the table names. -/
theorem illegalWordsAreThoseOfTheTable : Obligations.IllegalWordsAreThoseOfTheTable := by
  intro w
  obtain ⟨h0, -, -, h3⟩ := Machine.nibbles_toNat w
  have hkk : (nib2 w ++ nib3 w).toNat = w.toNat % 256 := fieldKk_eq w ▸ fieldKk_toNat w
  rw [decodeWord, decodeNibbles_eq_illegal_iff, h0, h3, hkk]

/-! ## The decoder's ports -/

/-- The kinds are the places of the 35 rows (R83). -/
theorem kindOf_lt (i : Instr) : kindOf i < 35 := by
  obtain ⟨q, hq, -⟩ := row_matches_encode i
  exact (List.getElem?_eq_some_iff.1 hq).1

/-- Every kind number fits the port's six bits (R78, R83). -/
theorem decodedPorts_ok (i : Instr) : (decodedPorts (.ok i)).2.toNat = kindOf i :=
  Nat.mod_eq_of_lt ((kindOf_lt i).trans (by decide))

/-- Settles O6: the fields are slices of the word, and the ports `valid` and `kind` follow the decoder's answer. -/
theorem decoderPortsPresentEveryField : Obligations.DecoderPortsPresentEveryField := by
  intro w
  obtain ⟨h0, h1, h2, h3⟩ := Machine.nibbles_toNat w
  refine ⟨h0, h1, h2, h3, h1, h2, h3, fieldKk_toNat w, fieldNnn_toNat w, fun i h => ?_, fun h => ?_⟩
  · rw [decoderPorts, h]
    exact ⟨rfl, decodedPorts_ok i⟩
  · rw [decoderPorts, h]
    exact ⟨rfl, rfl⟩

/-- Settles O7: the decoder evaluates on each word. -/
theorem writtenOutWordsDecodeRight : Obligations.WrittenOutWordsDecodeRight := by
  unfold Obligations.WrittenOutWordsDecodeRight
  decide

end Sys2Proof
end

section
/-! SUPPORT. Control flow: the word of each instruction, how a skip moves PC, and what `CALL` and `RET` do to the stack
(spec/40_control_flow.md R100 to R109). -/

namespace Sys2Proof.Machine

variable {i : Instr} {w : OpWord} {s t : State} {ps : List Part}

/-! ## Words -/

/-- The word the encoder gives a well-formed instruction belongs to it and to its kind (R73, R83). -/
theorem encodedAs_of_encode (hw : i.wellFormed = true) (he : encode i = w) : encodedAs w i (kindOf i) :=
  ⟨he, he ▸ decodeWord_encode hw, rfl⟩

/-! ## Skips -/

theorem pcNext_advance (s : State) : pcNext s (advance s) := nextAddr_toNat s

theorem pcSkip_skipIf_true (s : State) : pcSkip s (skipIf true s) := skipAddr_toNat s

theorem pcNext_skipIf_false (s : State) : pcNext s (skipIf false s) := nextAddr_toNat s

/-- An instruction that is a conditional skip moves PC alone: two words on where its test is met, to the next where it is not
(R100). -/
theorem exec_skips {taken : Bool} {met notMet : Prop} (h : exec i s = .next (skipIf taken s)) (hm : met → taken = true)
    (hn : notMet → taken = false) :
    ∃ t, exec i s = .next t ∧ (met → pcSkip s t) ∧ (notMet → pcNext s t) ∧ onlyChanges [.pc] s t := by
  refine ⟨_, h, fun c => ?_, fun c => ?_, by simp⟩
  · rw [hm c]
    exact pcSkip_skipIf_true s
  · rw [hn c]
    exact pcNext_skipIf_false s

/-! ## Call and return -/

theorem sp_of_exec_call {nnn : Addr} (h : exec (.call nnn) s = .next t) : t.sp = s.sp + 1#4 := by
  cases h
  rfl

/-- `CALL` writes the following word's address to the entry at SP, and no other entry (R104). -/
theorem readStack_of_exec_call {nnn : Addr} (h : exec (.call nnn) s = .next t) (j : BitVec 4) :
    readStack j t = if j = s.sp then nextAddr s else readStack j s := by
  cases h
  exact (readStack_congr (writePc_stack _ _) j).trans (readStack_push j _ s)

theorem sp_of_exec_ret (h : exec .ret s = .next t) : t.sp = s.sp - 1#4 := by
  cases h
  rfl

theorem pc_of_exec_ret (h : exec .ret s = .next t) : t.pc = readStack (s.sp - 1#4) s := exec_pcAfter h

/-- A part that reads alike may be struck from a frame. -/
theorem onlyChanges_of_cons {p : Part} (h : onlyChanges (p :: ps) s t) (hp : agreeOn p s t) : onlyChanges ps s t := by
  refine ⟨h.1, fun q hq => ?_⟩
  by_cases e : q = p
  · exact e ▸ hp
  · exact h.2 q (List.not_mem_cons_of_ne_of_not_mem e hq)

/-- Settles O22: the entry that `RET` loads is the one at the old SP, which `CALL` has just written; SP goes up and down again, so
it drops out of the two frames. -/
theorem callThenRetComesBack : Obligations.CallThenRetComesBack := by
  intro nnn s
  obtain ⟨t, ht⟩ : ∃ t, exec (.call nnn) s = .next t := ⟨_, rfl⟩
  obtain ⟨u, hu⟩ : ∃ u, exec .ret t = .next u := ⟨_, rfl⟩
  have hback : t.sp - 1#4 = s.sp := by rw [sp_of_exec_call ht, BitVec.add_sub_cancel]
  have hsp : u.sp = s.sp := (sp_of_exec_ret hu).trans hback
  have hpc : u.pc = nextAddr s := by
    rw [pc_of_exec_ret hu, hback, readStack_of_exec_call ht, if_pos rfl]
  have hframe : onlyChanges [.sp, .pc, .stack] s u :=
    onlyChanges_trans (onlyChanges_mono (exec_onlyChanges ht) (by simp [writesParts]))
      (onlyChanges_mono (exec_onlyChanges hu) (by simp [writesParts]))
  refine ⟨t, u, ht, hu, ?_, hsp, onlyChanges_of_cons hframe hsp⟩
  rw [pcNext, hpc, nextAddr_toNat]

/-- Settles O16: the popped entry is the one at the new SP, and the frame keeps every entry. -/
theorem retPopsIntoPc : Obligations.RetPopsIntoPc := by
  intro s
  obtain ⟨t, ht⟩ : ∃ t, exec .ret s = .next t := ⟨_, rfl⟩
  have hsp := sp_of_exec_ret ht
  refine ⟨encodedAs_of_encode rfl rfl, t, ht, ?_, ?_, exec_onlyChanges ht⟩
  · rw [hsp, BitVec.toNat_sub, Nat.add_comm]
    rfl
  · rw [hsp]
    exact pc_of_exec_ret ht

/-- Settles O18: the push writes the entry at the old SP and no other. -/
theorem callPushesReturnAddress : Obligations.CallPushesReturnAddress := by
  intro nnn s
  obtain ⟨t, ht⟩ : ∃ t, exec (.call nnn) s = .next t := ⟨_, rfl⟩
  refine ⟨encodedAs_of_encode rfl (nibble_addr_word 0x2#4 nnn), t, ht, ?_, fun j hj => ?_, ?_, exec_pcAfter ht,
    exec_onlyChanges ht⟩
  · rw [readStack_of_exec_call ht, if_pos rfl, nextAddr_toNat]
  · rw [readStack_of_exec_call ht, if_neg hj]
  · rw [sp_of_exec_call ht, BitVec.toNat_add]
    rfl

/-! ## SYS -/

theorem exec_sys_illegal {nnn : Addr} (h : s.cfg.sysMode = .illegal) :
    exec (.sys nnn) s = .fault (.illegalOpcode (encode (.sys nnn)) s.pc) := by
  simp only [exec, execSys, h, raiseIllegalOpcode]

theorem exec_sys_nop {nnn : Addr} (h : s.cfg.sysMode = .nop) : exec (.sys nnn) s = .next (advance s) := by
  simp only [exec, execSys, h]

/-- Settles O15: one case for each `SYS_MODE`; the two operands left out are those of the words of `CLS` and `RET`. -/
theorem sysRaisesOrAdvances : Obligations.SysRaisesOrAdvances := by
  intro nnn s h0 hE
  have hw : encode (.sys nnn) = wordNnn 0x0 nnn := nibble_addr_word 0x0#4 nnn
  refine ⟨encodedAs_of_encode (by simp [Instr.wellFormed, h0, hE]) hw, fun hm => ?_, fun hm => ?_⟩
  · rw [exec_sys_illegal hm, hw]
  · have h : exec (.sys nnn) s = .next (advance s) := exec_sys_nop hm
    exact ⟨_, h, pcNext_advance s, exec_onlyChanges h⟩

/-! ## Jumps -/

/-- Settles O17: the target is the operand as it stands. -/
theorem jpLoadsPc : Obligations.JpLoadsPc :=
  fun nnn s => ⟨encodedAs_of_encode rfl (nibble_addr_word 0x1#4 nnn), writePc nnn s, rfl, writePc_pc s nnn, by simp⟩

/-- A register value keeps its value as an address (R7). -/
theorem zext12_toNat (b : Byte) : (zext12 b).toNat = b.toNat := BitVec.toNat_setWidth_of_le (by decide)

/-- Settles O21: V0 keeps its value as an address, and addresses add modulo 4096. -/
theorem jpV0AddsV0 : Obligations.JpV0AddsV0 := by
  intro nnn s
  obtain ⟨t, ht⟩ : ∃ t, exec (.jpV0 nnn) s = .next t := ⟨_, rfl⟩
  have hpc : t.pc = zext12 (readV 0#4 s) + nnn := exec_pcAfter ht
  refine ⟨encodedAs_of_encode rfl (nibble_addr_word 0xB#4 nnn), t, ht, ?_, exec_onlyChanges ht⟩
  rw [hpc, BitVec.toNat_add, zext12_toNat]

/-! ## The four conditional skips -/

/-- Settles O19: both are conditional skips, on the test and on its opposite. -/
theorem byteSkipsCompareVxWithKk : Obligations.ByteSkipsCompareVxWithKk :=
  fun x kk _ => ⟨encodedAs_of_encode rfl (nibble_reg_byte_word 0x3#4 x kk),
    encodedAs_of_encode rfl (nibble_reg_byte_word 0x4#4 x kk),
    exec_skips rfl beq_iff_eq.2 beq_eq_false_iff_ne.2, exec_skips rfl bne_iff_ne.2 bne_eq_false_iff_eq.2⟩

/-- Settles O20: both are conditional skips, on the test and on its opposite. -/
theorem registerSkipsCompareVxWithVy : Obligations.RegisterSkipsCompareVxWithVy :=
  fun x y _ => ⟨encodedAs_of_encode rfl (nibbles_word 0x5#4 x y 0x0#4),
    encodedAs_of_encode rfl (nibbles_word 0x9#4 x y 0x0#4),
    exec_skips rfl beq_iff_eq.2 beq_eq_false_iff_ne.2, exec_skips rfl bne_iff_ne.2 bne_eq_false_iff_eq.2⟩

end Sys2Proof.Machine
end

section
/-! SUPPORT. Register loads and the ALU: what the two write orders leave behind, the flags and results as numbers, and the one
random byte (spec/41_register_alu.md R130 to R143). -/

namespace Sys2Proof.Machine

variable {s : State} {o : Result} {x : RegIdx} {b : Byte} {f : Bool}

/-! ## Outcomes by their last write -/

/-- An outcome that writes `V[x]` and moves on leaves every other register and part as it was; `P` is what the value written
gives (R131). -/
theorem next_writeV {P : State → Prop} (h : o = .next (advance (writeV x b s))) (hP : P (advance (writeV x b s))) :
    ∃ t, o = .next t ∧ P t ∧ onlyRegs [x] s t ∧ pcNext s t ∧ onlyChanges [.regs, .pc] s t := by
  refine ⟨_, h, hP, fun k hk => ?_, pcNext_advance s, by simp⟩
  rw [readV_advance, readV_writeV_other (List.ne_of_not_mem_cons hk)]

/-- `Vx` then `VF`: the flag is there always, the result unless `x = 15` (R130). -/
theorem next_writeResultThenFlag {n m : Nat} (h : o = .next (advance (writeResultThenFlag x b f s))) (hb : b.toNat = n)
    (hf : (flagByte f).toNat = m) :
    ∃ t, o = .next t ∧ (x ≠ vf → (readV x t).toNat = n) ∧ (readV vf t).toNat = m ∧
      onlyRegs [x, vf] s t ∧ pcNext s t ∧ onlyChanges [.regs, .pc] s t := by
  refine ⟨_, h, fun hx => ?_, ?_, fun k hk => ?_, pcNext_advance s, by simp⟩
  · rw [readV_advance, readV_writeResultThenFlag, if_neg hx, if_pos rfl, hb]
  · rw [readV_advance, readV_writeResultThenFlag, if_pos rfl, hf]
  · simp_all [readV_writeResultThenFlag]

/-- `VF` then `Vx`: the result is there always, the flag unless `x = 15` (R130). -/
theorem next_writeFlagThenResult {n m : Nat} (h : o = .next (advance (writeFlagThenResult x b f s))) (hb : b.toNat = n)
    (hf : (flagByte f).toNat = m) :
    ∃ t, o = .next t ∧ (readV x t).toNat = n ∧ (x ≠ vf → (readV vf t).toNat = m) ∧
      onlyRegs [x, vf] s t ∧ pcNext s t ∧ onlyChanges [.regs, .pc] s t := by
  refine ⟨_, h, ?_, fun hx => ?_, fun k hk => ?_, pcNext_advance s, by simp⟩
  · rw [readV_advance, readV_writeFlagThenResult, if_pos rfl, hb]
  · rw [readV_advance, readV_writeFlagThenResult, if_neg hx.symm, if_pos rfl, hf]
  · simp_all [readV_writeFlagThenResult]

/-! ## Flags and results as numbers -/

/-- A flag whose bit is a test reads 1 where the test holds and 0 where it does not (R23). -/
theorem flagByte_decide_toNat (c : Prop) [Decidable c] : (flagByte (decide c)).toNat = if c then 1 else 0 := by
  simp only [flagByte_toNat, decide_eq_true_eq]

theorem flagByte_carryOut_toNat (a b : Byte) : (flagByte (carryOut a b)).toNat = if 255 < a.toNat + b.toNat then 1 else 0 :=
  flagByte_decide_toNat _

theorem flagByte_noBorrow_toNat (a b : Byte) : (flagByte (noBorrow a b)).toNat = if b.toNat ≤ a.toNat then 1 else 0 :=
  flagByte_decide_toNat _

/-- A flag taken from bit `j` of a byte is that binary digit of its value. -/
theorem flagByte_getLsbD_toNat (a : Byte) (j : Nat) : (flagByte (a.getLsbD j)).toNat = a.toNat / 2 ^ j % 2 := by
  rw [← Nat.toNat_testBit, ← BitVec.testBit_toNat]
  cases a.toNat.testBit j <;> rfl

theorem flagByte_bitOutRight_toNat (a : Byte) : (flagByte (bitOutRight a)).toNat = a.toNat % 2 := by
  rw [bitOutRight, flagByte_getLsbD_toNat, Nat.pow_zero, Nat.div_one]

theorem flagByte_bitOutLeft_toNat (a : Byte) : (flagByte (bitOutLeft a)).toNat = a.toNat / 128 := by
  have := a.isLt
  rw [bitOutLeft, flagByte_getLsbD_toNat]
  omega

/-- Subtraction wraps modulo 256 (R143). -/
theorem byte_sub_toNat (a b : Byte) : (a - b).toNat = (a.toNat + 256 - b.toNat) % 256 := by
  have := b.isLt
  rw [BitVec.toNat_sub]
  omega

theorem byte_shiftRight_one_toNat (a : Byte) : (a >>> 1).toNat = a.toNat / 2 := by
  rw [BitVec.toNat_ushiftRight, Nat.shiftRight_one]

theorem byte_shiftLeft_one_toNat (a : Byte) : (a <<< 1).toNat = 2 * a.toNat % 256 := by
  rw [BitVec.toNat_shiftLeft, Nat.shiftLeft_eq, Nat.mul_comm]

/-! ## Loads and logic -/

/-- Settles O23: each writes `V[x]` and moves on. -/
theorem registerLoadsWriteVx : Obligations.RegisterLoadsWriteVx :=
  fun x y kk s => ⟨encodedAs_of_encode rfl (nibble_reg_byte_word 0x6#4 x kk),
    encodedAs_of_encode rfl (nibbles_word 0x8#4 x y 0x0#4),
    next_writeV rfl (readV_writeV_same x kk s), next_writeV rfl (readV_writeV_same x (readV y s) s)⟩

/-- Settles O24: each writes `V[x]` and moves on, and the value written has the bits of the operation. -/
theorem logicWritesVxBitByBit : Obligations.LogicWritesVxBitByBit := by
  intro x y s
  refine ⟨encodedAs_of_encode rfl (nibbles_word 0x8#4 x y 0x1#4), encodedAs_of_encode rfl (nibbles_word 0x8#4 x y 0x2#4),
    encodedAs_of_encode rfl (nibbles_word 0x8#4 x y 0x3#4), next_writeV rfl fun j _ => ?_, next_writeV rfl fun j _ => ?_,
    next_writeV rfl fun j _ => ?_⟩
  · rw [readV_advance, readV_writeV_same, BitVec.toNat_or, Nat.testBit_or]
  · rw [readV_advance, readV_writeV_same, BitVec.toNat_and, Nat.testBit_and]
  · rw [readV_advance, readV_writeV_same, BitVec.toNat_xor, Nat.testBit_xor]

/-! ## Arithmetic and shifts -/

/-- Settles O25: the sum is written first and the carry last. -/
theorem addByteWritesSumThenCarry : Obligations.AddByteWritesSumThenCarry :=
  fun x kk s => ⟨encodedAs_of_encode rfl (nibble_reg_byte_word 0x7#4 x kk),
    next_writeResultThenFlag rfl (BitVec.toNat_add (readV x s) kk) (flagByte_carryOut_toNat _ _)⟩

/-- Settles O26: the sum is written first and the carry last, both from the operands before any write. -/
theorem addRegWritesSumThenCarry : Obligations.AddRegWritesSumThenCarry :=
  fun x y s => ⟨encodedAs_of_encode rfl (nibbles_word 0x8#4 x y 0x4#4),
    next_writeResultThenFlag rfl (BitVec.toNat_add (readV x s) (readV y s)) (flagByte_carryOut_toNat _ _)⟩

/-- Settles O27: the difference is written first and the no-borrow flag last. -/
theorem subWritesDifferenceThenNoBorrow : Obligations.SubWritesDifferenceThenNoBorrow :=
  fun x y _ => ⟨encodedAs_of_encode rfl (nibbles_word 0x8#4 x y 0x5#4),
    next_writeResultThenFlag rfl (byte_sub_toNat _ _) (flagByte_noBorrow_toNat _ _)⟩

/-- Settles O28: the no-borrow flag is written first and the difference last. -/
theorem subnWritesNoBorrowThenDifference : Obligations.SubnWritesNoBorrowThenDifference :=
  fun x y _ => ⟨encodedAs_of_encode rfl (nibbles_word 0x8#4 x y 0x7#4),
    next_writeFlagThenResult rfl (byte_sub_toNat _ _) (flagByte_noBorrow_toNat _ _)⟩

/-- Settles O29: the bit shifted out is written first and the result last, both from `V[x]` alone. -/
theorem shiftsWriteBitOutThenResult : Obligations.ShiftsWriteBitOutThenResult :=
  fun x y _ => ⟨encodedAs_of_encode rfl (nibbles_word 0x8#4 x y 0x6#4),
    encodedAs_of_encode rfl (nibbles_word 0x8#4 x y 0xE#4),
    next_writeFlagThenResult rfl (byte_shiftRight_one_toNat _) (flagByte_bitOutRight_toNat _),
    next_writeFlagThenResult rfl (byte_shiftLeft_one_toNat _) (flagByte_bitOutLeft_toNat _)⟩

/-! ## Random byte -/

/-- A step with the host's draw on a word that decodes to `RND` has the effect of that draw (R142). -/
theorem stepWith_rnd {r kk : Byte} (h : decodeWord (fetchWord s) = .ok (.rnd x kk)) :
    stepWith r s = .next (randomEffect r x kk s) := by
  simp only [stepWith, h]

/-- Settles O30: the word at PC decodes to `RND`, whose effect is one write of the masked draw. -/
theorem rndMasksTheHostsDraw : Obligations.RndMasksTheHostsDraw := by
  intro r x kk s
  have henc : encodedAs (wordXkk 0xC x kk) (.rnd x kk) 22 := encodedAs_of_encode rfl (nibble_reg_byte_word 0xC#4 x kk)
  refine ⟨henc, fun hw => ?_⟩
  obtain ⟨-, hdec, -⟩ := henc
  refine next_writeV (stepWith_rnd (hw ▸ hdec)) fun j _ => ?_
  rw [readV_advance, readV_writeV_same, BitVec.toNat_and, Nat.testBit_and]

end Sys2Proof.Machine
end

section
/-! SUPPORT. Index register and memory: I written alone, the digits of a byte, and where the register store and load put each
byte (spec/42_index_memory.md R169 to R175). -/

namespace Sys2Proof.Machine

variable {s t : State} {o : Result} {x k : RegIdx} {a : Addr}

/-! ## Data addresses -/

theorem dataAddr_toNat (i0 : Addr) (k : Nat) : (dataAddr i0 k).toNat = (i0.toNat + k) % 4096 := by simp [dataAddr]

/-- The offset names the address, below 4096 (R56). -/
theorem dataAddr_eq_iff {i0 : Addr} {j k : Nat} (hj : j < 4096) (hk : k < 4096) : dataAddr i0 j = dataAddr i0 k ↔ j = k :=
  ⟨dataAddr_inj hj hk, congrArg (dataAddr i0)⟩

/-- Settles O33: an address adds modulo 4096, and 16 offsets do not come round. -/
theorem dataAddressesWrapAndAreDistinct : Obligations.DataAddressesWrapAndAreDistinct :=
  fun i0 _ k => ⟨dataAddr_toNat i0 k, fun hj hk => dataAddr_inj (Nat.lt_trans hj (by decide)) (Nat.lt_trans hk (by decide))⟩

/-! ## Index register -/

/-- An outcome that writes I and moves on leaves every other part as it was; `P` is what the address written gives. -/
theorem next_writeI {P : State → Prop} (h : o = .next (advance (writeI a s))) (hP : P (advance (writeI a s))) :
    ∃ t, o = .next t ∧ P t ∧ pcNext s t ∧ onlyChanges [.i, .pc] s t :=
  ⟨_, h, hP, pcNext_advance s, by simp⟩

theorem addr_add_zext12_toNat (i0 : Addr) (b : Byte) : (i0 + zext12 b).toNat = (i0.toNat + b.toNat) % 4096 := by
  rw [BitVec.toNat_add, zext12_toNat]

/-- The last glyph address is 1275, so nothing wraps (R172). -/
theorem glyphAddr_toNat (b : Byte) : (glyphAddr b).toNat = 5 * b.toNat := by
  have := b.isLt
  simp only [glyphAddr, fontBase, fontGlyphBytes, BitVec.toNat_ofNat]
  omega

/-- Settles O34: each writes I and moves on. -/
theorem indexLoadsWriteI : Obligations.IndexLoadsWriteI :=
  fun nnn x s => ⟨encodedAs_of_encode rfl (nibble_addr_word 0xA#4 nnn),
    encodedAs_of_encode rfl (nibble_reg_byte_word 0xF#4 x 0x1E#8),
    encodedAs_of_encode rfl (nibble_reg_byte_word 0xF#4 x 0x29#8),
    next_writeI rfl rfl, next_writeI rfl (addr_add_zext12_toNat s.i (readV x s)), next_writeI rfl (glyphAddr_toNat (readV x s))⟩

/-! ## Decimal digits -/

theorem bcdHundreds_toNat (b : Byte) : (bcdHundreds b).toNat = b.toNat / 100 := by
  have := b.isLt
  rw [bcdHundreds, BitVec.toNat_ofNat]
  omega

theorem bcdTens_toNat (b : Byte) : (bcdTens b).toNat = b.toNat / 10 % 10 := by
  rw [bcdTens, BitVec.toNat_ofNat]
  omega

theorem bcdOnes_toNat (b : Byte) : (bcdOnes b).toNat = b.toNat % 10 := by
  rw [bcdOnes, BitVec.toNat_ofNat]
  omega

/-- `LD B, Vx` leaves memory as its three stores do, the last one on top (R173). -/
theorem readByte_of_exec_ldBcd (h : exec (.ldBcd x) s = .next t) (a : Addr) :
    readByte a t =
      if a = dataAddr s.i 2 then bcdOnes (readV x s)
      else if a = dataAddr s.i 1 then bcdTens (readV x s)
      else if a = dataAddr s.i 0 then bcdHundreds (readV x s)
      else readByte a s := by
  cases h
  simp only [readByte_advance, readByte_writeByte]

/-- Settles O35: the three addresses are distinct, so each digit stays where it was stored. -/
theorem bcdStoresThreeDigits : Obligations.BcdStoresThreeDigits := by
  intro x s
  obtain ⟨t, ht⟩ : ∃ t, exec (.ldBcd x) s = .next t := ⟨_, rfl⟩
  have hread := readByte_of_exec_ldBcd ht
  refine ⟨encodedAs_of_encode rfl (nibble_reg_byte_word 0xF#4 x 0x33#8), t, ht, ?_, ?_, ?_, fun a h0 h1 h2 => ?_, ?_,
    exec_onlyChanges ht⟩
  · simp [hread, dataAddr_eq_iff, bcdHundreds_toNat]
  · simp [hread, dataAddr_eq_iff, bcdTens_toNat]
  · simp [hread, bcdOnes_toNat]
  · rw [hread, if_neg h2, if_neg h1, if_neg h0]
  · cases ht
    exact pcNext_advance s

/-! ## Register store -/

/-- Every byte that `LD [I], Vx` stores to is that of a register up to `Vx` (R174). -/
theorem exists_reg_of_storesTo_storeRegs (h : storesTo (.storeRegs x) s a) :
    ∃ k : RegIdx, k.toNat ≤ x.toNat ∧ a = dataAddr s.i k.toNat := by
  obtain ⟨k, hk, ha⟩ := h
  have hk' : (BitVec.ofNat 4 k).toNat = k := Nat.mod_eq_of_lt (Nat.lt_of_le_of_lt hk x.isLt)
  exact ⟨BitVec.ofNat 4 k, hk'.symm ▸ hk, hk'.symm ▸ ha⟩

/-- Settles O36: the store loop puts each register at its address, and the footprint of the store is those addresses. -/
theorem storeRegsStoresV0ToVx : Obligations.StoreRegsStoresV0ToVx := by
  intro x s
  obtain ⟨t, ht⟩ : ∃ t, exec (.storeRegs x) s = .next t := ⟨_, rfl⟩
  refine ⟨encodedAs_of_encode rfl (nibble_reg_byte_word 0xF#4 x 0x55#8), t, ht, fun k => readByte_of_exec_storeRegs ht,
    fun a ha => exec_keeps_other_bytes ht fun hs => ?_, ?_, exec_onlyChanges ht⟩
  · obtain ⟨k, hk, hak⟩ := exists_reg_of_storesTo_storeRegs hs
    exact ha k hk hak
  · rw [pcNext, pc_of_exec_storeRegs ht, nextAddr_toNat]

/-! ## Register load -/

/-- `LD Vx, [I]` leaves byte `k` in register `k`, for each `k` up to `x` (R175). -/
theorem readV_of_exec_loadRegs (h : exec (.loadRegs x) s = .next t) (hk : k.toNat ≤ x.toNat) :
    readV k t = readByte (dataAddr s.i k.toNat) s := by
  cases h
  rw [readV_advance, readV_loadLoop _ _ _ x.isLt, if_pos (Nat.lt_succ_of_le hk)]

/-- `LD Vx, [I]` moves PC to the following word (R175). -/
theorem pc_of_exec_loadRegs (h : exec (.loadRegs x) s = .next t) : t.pc = nextAddr s := by
  cases h
  simp [nextAddr]

/-- Settles O37: the load loop puts each byte in its register, and the registers above `Vx` are outside the footprint. -/
theorem loadRegsLoadsV0ToVx : Obligations.LoadRegsLoadsV0ToVx := by
  intro x s
  obtain ⟨t, ht⟩ : ∃ t, exec (.loadRegs x) s = .next t := ⟨_, rfl⟩
  refine ⟨encodedAs_of_encode rfl (nibble_reg_byte_word 0xF#4 x 0x65#8), t, ht, fun k => readV_of_exec_loadRegs ht,
    fun k hk => exec_keeps_other_regs ht (decide_eq_false (Nat.not_le.2 hk)), ?_, exec_onlyChanges ht⟩
  rw [pcNext, pc_of_exec_loadRegs ht, nextAddr_toNat]

/-! ## Store, then load -/

/-- `LD [I], Vx` keeps I (R174; D15). -/
theorem i_of_exec_storeRegs (h : exec (.storeRegs x) s = .next t) : t.i = s.i :=
  (exec_onlyChanges h).2 .i (by simp [writesParts])

/-- Settles O38: the load reads at the I of the store, where the store left the registers. -/
theorem storeThenLoadBringsBack : Obligations.StoreThenLoadBringsBack := by
  intro x s
  obtain ⟨t, ht⟩ : ∃ t, exec (.storeRegs x) s = .next t := ⟨_, rfl⟩
  refine ⟨t, ht, fun u hi hmem => ?_⟩
  obtain ⟨w, hw⟩ : ∃ w, exec (.loadRegs x) u = .next w := ⟨_, rfl⟩
  refine ⟨w, hw, fun k hk => ?_⟩
  calc readV k w
    _ = readByte (dataAddr u.i k.toNat) u := readV_of_exec_loadRegs hw hk
    _ = readByte (dataAddr s.i k.toNat) t := by rw [hmem, hi, i_of_exec_storeRegs ht]
    _ = readV k s := readByte_of_exec_storeRegs ht hk

end Sys2Proof.Machine
end

section
/-! SUPPORT. Display: the cells and the flag that a draw leaves, and what a second draw of the same sprite sees
(spec/43_display.md R200 to R202). -/

namespace Sys2Proof.Machine

variable {s t : State} {x y : RegIdx} {n : Nibble} {px : Fin 64} {py : Fin 32}

/-! ## CLS -/

/-- Settles O40: every cell of the blank display is 0, and the rest is the footprint. -/
theorem clsClearsEveryCell : Obligations.ClsClearsEveryCell := by
  intro s
  obtain ⟨t, ht⟩ : ∃ t, exec .cls s = .next t := ⟨_, rfl⟩
  refine ⟨encodedAs_of_encode rfl rfl, t, ht, fun px py => ?_, ?_, exec_onlyChanges ht⟩
  · cases ht
    exact blankDisplay_cell px py
  · cases ht
    exact pcNext_advance s

/-! ## One draw -/

/-- A cell under a 1 bit of the sprite flips (R201). -/
theorem readCell_of_exec_drw_covered (h : exec (.drw x y n) s = .next t)
    (hc : spriteCovers s (readV x s) (readV y s) n.toNat px py) : readCell px py t = !readCell px py s := by
  cases h
  exact (drawRows_spec s s.i (readV x s) (readV y s) n.isLt (s.disp, false)).1 px py ((spriteCovers_iff ..).1 hc)

/-- Every other cell stays (R201). -/
theorem readCell_of_exec_drw_other (h : exec (.drw x y n) s = .next t)
    (hc : ¬ spriteCovers s (readV x s) (readV y s) n.toNat px py) : readCell px py t = readCell px py s := by
  cases h
  exact (drawRows_spec s s.i (readV x s) (readV y s) n.isLt (s.disp, false)).2.1 px py (mt (spriteCovers_iff ..).2 hc)

/-- VF ends as the flag of a collision: some cell under a 1 bit was 1 (R201). -/
theorem vf_of_exec_drw (h : exec (.drw x y n) s = .next t) :
    ∃ hit, readV vf t = flagByte hit ∧
      (hit = true ↔ ∃ px py, spriteCovers s (readV x s) (readV y s) n.toNat px py ∧ readCell px py s = true) := by
  cases h
  refine ⟨_, readV_writeV_same vf _ _, ?_⟩
  obtain ⟨-, -, hhit⟩ := drawRows_spec s s.i (readV x s) (readV y s) n.isLt (s.disp, false)
  simpa [spriteCovers_iff, readCell] using hhit

theorem flagByte_eq_one (b : Bool) : flagByte b = 1 ↔ b = true := by cases b <;> decide

theorem vf_of_exec_drw_eq_one (h : exec (.drw x y n) s = .next t) :
    readV vf t = 1 ↔ ∃ px py, spriteCovers s (readV x s) (readV y s) n.toNat px py ∧ readCell px py s = true := by
  obtain ⟨hit, hvf, hhit⟩ := vf_of_exec_drw h
  rw [hvf, flagByte_eq_one, hhit]

/-- With no cell to collide with VF ends as 0 (R201). -/
theorem vf_of_exec_drw_eq_zero (h : exec (.drw x y n) s = .next t)
    (hclear : ∀ px py, spriteCovers s (readV x s) (readV y s) n.toNat px py → readCell px py s = false) :
    readV vf t = 0 := by
  obtain ⟨hit, hvf, hhit⟩ := vf_of_exec_drw h
  have hfalse : hit = false := by
    refine eq_false_of_ne_true fun htrue => ?_
    obtain ⟨px, py, hc, hset⟩ := hhit.1 htrue
    exact absurd hset (ne_true_of_eq_false (hclear px py hc))
  rw [hvf, hfalse]
  rfl

/-- `DRW` writes no register but VF (R23). -/
theorem readV_of_exec_drw {k : RegIdx} (h : exec (.drw x y n) s = .next t) (hk : k ≠ vf) : readV k t = readV k s :=
  exec_keeps_other_regs h (beq_false_of_ne hk)

/-- Settles O41: the loop over the sprite flips the covered cells, VF is the flag of its collision, and the rest is the
footprint. -/
theorem drwFlipsTheSpritesCells : Obligations.DrwFlipsTheSpritesCells := by
  intro x y n s
  obtain ⟨t, ht⟩ : ∃ t, exec (.drw x y n) s = .next t := ⟨_, rfl⟩
  refine ⟨encodedAs_of_encode rfl (nibbles_word 0xD#4 x y n), t, ht, fun px py => readCell_of_exec_drw_covered ht,
    fun px py => readCell_of_exec_drw_other ht, (vf_of_exec_drw_eq_one ht).2, vf_of_exec_drw_eq_zero ht,
    fun k hk => readV_of_exec_drw ht (List.ne_of_not_mem_cons hk), ?_, exec_onlyChanges ht⟩
  cases ht
  exact pcNext_advance s

/-! ## Drawing twice -/

/-- The cells of a sprite depend on the state through I and memory alone, which `DRW` keeps (R201). -/
theorem spriteCovers_of_exec_drw (h : exec (.drw x y n) s = .next t) (cx cy : Byte) (m : Nat) :
    spriteCovers t cx cy m px py ↔ spriteCovers s cx cy m px py := by
  obtain ⟨-, hkeeps⟩ := exec_onlyChanges h
  have hi : t.i = s.i := hkeeps .i (by simp [writesParts])
  have hmem : ∀ a, readByte a t = readByte a s := hkeeps .mem (by simp [writesParts])
  simp only [spriteCovers, hi, hmem]

/-- With neither coordinate in VF the second draw covers the cells of the first (R201). -/
theorem spriteCovers_second_drw (h : exec (.drw x y n) s = .next t) (hx : x ≠ vf) (hy : y ≠ vf) :
    spriteCovers t (readV x t) (readV y t) n.toNat px py ↔ spriteCovers s (readV x s) (readV y s) n.toNat px py := by
  rw [spriteCovers_of_exec_drw h, readV_of_exec_drw h hx, readV_of_exec_drw h hy]

/-- Settles O42: both draws flip the same cells, so each cell flips twice or not at all, and a covered cell is 1 at the second
draw where it was 0 at the first. -/
theorem drawingTwiceRestoresTheDisplay : Obligations.DrawingTwiceRestoresTheDisplay := by
  intro x y n s hx hy
  obtain ⟨t, ht⟩ : ∃ t, exec (.drw x y n) s = .next t := ⟨_, rfl⟩
  obtain ⟨u, hu⟩ : ∃ u, exec (.drw x y n) t = .next u := ⟨_, rfl⟩
  have hsame : ∀ px py, spriteCovers t (readV x t) (readV y t) n.toNat px py ↔
      spriteCovers s (readV x s) (readV y s) n.toNat px py := fun _ _ => spriteCovers_second_drw ht hx hy
  refine ⟨t, u, ht, hu, fun px py => ?_, ?_⟩
  · by_cases hc : spriteCovers s (readV x s) (readV y s) n.toNat px py
    · rw [readCell_of_exec_drw_covered hu ((hsame px py).2 hc), readCell_of_exec_drw_covered ht hc, Bool.not_not]
    · rw [readCell_of_exec_drw_other hu (mt (hsame px py).1 hc), readCell_of_exec_drw_other ht hc]
  · simp only [vf_of_exec_drw_eq_one hu, hsame]
    refine exists_congr fun px => exists_congr fun py => and_congr_right fun hc => ?_
    rw [readCell_of_exec_drw_covered ht hc, Bool.not_eq_true']

end Sys2Proof.Machine
end

section
/-! SUPPORT. Keys and timers: which key a register value names and whether it is pressed, what the key wait binds, what a tick
does, and that no move but `InputSet` presses a key (spec/44_keys_timers.md R220 to R229). -/

namespace Sys2Proof.Machine

variable {i : Instr} {s t : State} {x : RegIdx} {k : KeyIdx}

/-! ## Reads of the latch -/

@[simp] theorem readKey_advance (k : KeyIdx) (s : State) : readKey k (advance s) = readKey k s := rfl
@[simp] theorem readKey_skipIf (k : KeyIdx) (taken : Bool) (s : State) : readKey k (skipIf taken s) = readKey k s := rfl
@[simp] theorem readKey_writeV (k : KeyIdx) (x : RegIdx) (b : Byte) (s : State) : readKey k (writeV x b s) = readKey k s := rfl

@[simp] theorem readKey_writeKey_same (k : KeyIdx) (b : Bool) (s : State) : readKey k (writeKey k b s) = b := by
  simp [readKey_writeKey]

theorem readKey_writeKey_other {j k : KeyIdx} (h : j ≠ k) (b : Bool) (s : State) :
    readKey j (writeKey k b s) = readKey j s := by
  simp [readKey_writeKey, h]

/-! ## The named key -/

/-- A value up to 15 names itself under either `KEY_OOR` (R222). -/
theorem keyOf_of_le (mode : Config.KeyOor) {b : Byte} (h : b.toNat ≤ 15) : keyOf mode b = some (b.setWidth 4) := if_pos h

theorem keyOf_notPressed_of_lt {b : Byte} (h : 15 < b.toNat) : keyOf .notPressed b = none := if_neg (Nat.not_le.2 h)

theorem keyOf_lowNibble_of_lt {b : Byte} (h : 15 < b.toNat) : keyOf .lowNibble b = some (b.setWidth 4) :=
  if_neg (Nat.not_le.2 h)

theorem lowNibble_toNat (b : Byte) : (b.setWidth 4).toNat = b.toNat % 16 := BitVec.toNat_setWidth ..

/-- Settles O43: a named key is the low nibble, which up to 15 is the value itself. -/
theorem keyOfNamesTheKey : Obligations.KeyOfNamesTheKey := by
  refine ⟨fun b => ⟨fun h mode => ⟨_, keyOf_of_le mode h, ?_⟩, keyOf_notPressed_of_lt,
    fun h => ⟨_, keyOf_lowNibble_of_lt h, lowNibble_toNat b⟩⟩, fun s => ⟨rfl, rfl⟩⟩
  rw [lowNibble_toNat, Nat.mod_eq_of_lt (Nat.lt_succ_of_le h)]

/-! ## SKP and SKNP -/

theorem keyPressed_eq_true {o : Option KeyIdx} : keyPressed o s = true ↔ ∃ k, o = some k ∧ readKey k s = true := by
  cases o <;> simp [keyPressed]

theorem keyPressed_eq_false {o : Option KeyIdx} : keyPressed o s = false ↔ ∀ k, o = some k → readKey k s = false := by
  cases o <;> simp [keyPressed]

theorem exec_skp_pressed (hk : keyOf s.cfg.keyOor (readV x s) = some k) (hp : readKey k s = true) :
    exec (.skp x) s = .next (skipIf true (writeKey k false s)) := by
  have hkey : keyOfReg x s = some k := hk
  simp [exec, execSkp, hkey, keyPressed, hp, consumeKey]

theorem exec_skp_not_pressed (h : ∀ k, keyOf s.cfg.keyOor (readV x s) = some k → readKey k s = false) :
    exec (.skp x) s = .next (advance s) := by
  have hkey : keyPressed (keyOfReg x s) s = false := keyPressed_eq_false.2 h
  simp [exec, execSkp, hkey]

/-- Settles O44: one outcome for a pressed key, which writes its flag and PC, and one for any other, which writes PC alone. -/
theorem skpConsumesAndSkips : Obligations.SkpConsumesAndSkips := by
  refine fun x s => ⟨encodedAs_of_encode rfl (nibble_reg_byte_word 0xE#4 x 0x9E#8), fun k hk hp => ?_, fun h => ?_⟩
  · have ht := exec_skp_pressed hk hp
    exact ⟨_, ht, readKey_writeKey_same k false s, fun j hj => readKey_writeKey_other hj false s, skipAddr_toNat s,
      exec_onlyChanges ht⟩
  · exact ⟨_, exec_skp_not_pressed h, pcNext_advance s, by simp⟩

/-- Settles O45: a conditional skip, on the key's not being pressed. -/
theorem sknpSkipsWhenNotPressed : Obligations.SknpSkipsWhenNotPressed := by
  intro x s
  have hskip : exec (.sknp x) s = .next (skipIf (!keyPressed (keyOfReg x s) s) s) := rfl
  obtain ⟨t, ht, hnot, hpressed, hframe⟩ := exec_skips hskip (fun h => by rw [keyPressed_eq_false.2 h, Bool.not_false])
    (fun h => by rw [keyPressed_eq_true.2 h, Bool.not_true])
  exact ⟨encodedAs_of_encode rfl (nibble_reg_byte_word 0xE#4 x 0xA1#8), t, ht, hframe, hpressed, hnot⟩

/-! ## The key wait -/

theorem exec_ldVxKey_none (x : RegIdx) (h : lowestKey s = none) : exec (.ldVxKey x) s = .next s := by
  simp only [exec, execLdVxKey, h]

theorem exec_ldVxKey_some (x : RegIdx) (h : lowestKey s = some k) :
    exec (.ldVxKey x) s = .next (advance
      (if s.cfg.fx0aConsume then writeKey k false (writeV x (k.setWidth 8) s) else writeV x (k.setWidth 8) s)) := by
  simp only [exec, execLdVxKey, h]

/-- The key bound is the byte of its number, and PC goes on (R223). -/
theorem readV_pc_of_exec_ldVxKey (h : exec (.ldVxKey x) s = .next t) (hk : lowestKey s = some k) :
    readV x t = k.setWidth 8 ∧ pcNext s t := by
  rw [exec_ldVxKey_some x hk] at h
  cases h
  cases s.cfg.fx0aConsume
  · exact ⟨readV_writeV_same .., pcNext_advance s⟩
  · exact ⟨readV_writeV_same .., pcNext_advance s⟩

/-- The key bound is consumed when `FX0A_CONSUME` is true, and no other flag changes (R223). -/
theorem readKey_of_exec_ldVxKey (h : exec (.ldVxKey x) s = .next t) (hk : lowestKey s = some k) (j : KeyIdx) :
    readKey j t = if j = k then !s.cfg.fx0aConsume else readKey j s := by
  have hpressed : readKey k s = true := (lowestKey_eq_some.1 hk).1
  rw [exec_ldVxKey_some x hk] at h
  cases h
  cases s.cfg.fx0aConsume
  · by_cases e : j = k <;> simp [e, hpressed]
  · simp [readKey_writeKey]

/-- Settles O46: the scan finds no key exactly when none is latched, and otherwise the lowest; the registers and the frame are the
footprint. -/
theorem keyWaitBindsTheLowestKey : Obligations.KeyWaitBindsTheLowestKey := by
  refine fun x s => ⟨encodedAs_of_encode rfl (nibble_reg_byte_word 0xF#4 x 0x0A#8),
    fun hnone => exec_ldVxKey_none x (lowestKey_eq_none.2 hnone), fun k hk hlow => ?_⟩
  have hfound : lowestKey s = some k := lowestKey_eq_some.2 ⟨hk, hlow⟩
  have ht := exec_ldVxKey_some x hfound
  obtain ⟨hv, hpc⟩ := readV_pc_of_exec_ldVxKey ht hfound
  have hkeys := readKey_of_exec_ldVxKey ht hfound
  refine ⟨_, ht, ?_, fun r hr => exec_keeps_other_regs ht (beq_false_of_ne (List.ne_of_not_mem_cons hr)), ?_, fun j hj => ?_,
    hpc, exec_onlyChanges ht⟩
  · rw [hv, BitVec.toNat_setWidth_of_le (by decide)]
  · rw [hkeys, if_pos rfl]
  · rw [hkeys, if_neg hj]

/-! ## Timers -/

/-- Settles O47: one write each, of a register or of a timer. -/
theorem timerMovesCopyAByte : Obligations.TimerMovesCopyAByte :=
  fun x s => ⟨encodedAs_of_encode rfl (nibble_reg_byte_word 0xF#4 x 0x07#8),
    encodedAs_of_encode rfl (nibble_reg_byte_word 0xF#4 x 0x15#8),
    encodedAs_of_encode rfl (nibble_reg_byte_word 0xF#4 x 0x18#8),
    next_writeV rfl (readV_writeV_same x s.dt s),
    ⟨_, rfl, rfl, pcNext_advance s, by simp⟩, ⟨_, rfl, rfl, pcNext_advance s, by simp⟩⟩

/-- A tick takes one off and stops at 0, which is subtraction of natural numbers (R227). -/
theorem tickDown_toNat (b : Byte) : (tickDown b).toNat = b.toNat - 1 := by
  by_cases h : b = 0
  · rw [tickDown, if_pos h, h]
    rfl
  · have hpos : b.toNat ≠ 0 := fun e => h (BitVec.eq_of_toNat_eq e)
    have hlt := b.isLt
    have hone : (1 : Byte).toNat = 1 := rfl
    rw [tickDown, if_neg h, byte_sub_toNat, hone]
    omega

theorem onlyChanges_timerTick (s : State) : onlyChanges [.dt, .st] s (timerTick s) := by simp [timerTick]

/-- Settles O48: each timer is written with its own value a tick later. -/
theorem timerTickDecrementsBoth : Obligations.TimerTickDecrementsBoth :=
  fun s => ⟨timerTick s, rfl, tickDown_toNat s.dt, tickDown_toNat s.st, onlyChanges_timerTick s⟩

theorem tickIfDue_of_due {interval now last : Rat} (h : interval ≤ now - last) (s : State) :
    tickIfDue interval now last s = (timerTick s, now) := if_pos h

theorem tickIfDue_of_not_due {interval now last : Rat} (h : now - last < interval) (s : State) :
    tickIfDue interval now last s = (s, last) := if_neg (not_le.2 h)

/-- Settles O49: a tick notes the time, so at that same time no time has passed and a positive interval has not either. -/
theorem tickIfDueTicksAtMostOnce : Obligations.TickIfDueTicksAtMostOnce := by
  refine fun interval now last s hpos => ⟨fun h => tickIfDue_of_due h s, fun h => tickIfDue_of_not_due h s, ?_⟩
  rcases le_or_gt interval (now - last) with h | h
  · have hagain : now - now < interval := by rwa [sub_self]
    rw [tickIfDue_of_due h, tickIfDue_of_not_due hagain]
  · rw [tickIfDue_of_not_due h, tickIfDue_of_not_due h]

/-! ## Which move presses a key -/

theorem readKey_of_writeKey_false {j : KeyIdx} (h : readKey k (writeKey j false s) = true) : readKey k s = true := by
  rw [readKey_writeKey] at h
  split at h
  · cases h
  · exact h

/-- No instruction presses a key: two may clear one flag, and the others keep the latch by their frame (R33). -/
theorem exec_presses_no_key (h : exec i s = .next t) (hk : readKey k t = true) : readKey k s = true := by
  cases i
  case skp x =>
    obtain ⟨-, rfl⟩ | ⟨-, rfl⟩ := execSkp_eq_next h
    · obtain e | ⟨j, -, e⟩ := consumeKey_cases (keyOfReg x s) s
      · rwa [readKey_skipIf, e] at hk
      · rw [readKey_skipIf, e] at hk
        exact readKey_of_writeKey_false hk
    · exact hk
  case ldVxKey x =>
    obtain ⟨-, rfl⟩ | ⟨j, -, ⟨-, rfl⟩ | ⟨-, rfl⟩⟩ := execLdVxKey_eq_next h
    · exact hk
    · exact hk
    · exact readKey_of_writeKey_false (s := writeV x (j.setWidth 8) s) hk
  all_goals exact (exec_onlyChanges h).2 .keys (by simp [writesParts]) k ▸ hk

/-- A step with the host's draw that completes is the effect of that draw on `RND`, and the decoded instruction's own on every
other word (R259, R284). -/
theorem stepWith_eq_next {r : Byte} (h : stepWith r s = .next t) :
    (∃ x kk, decodeWord (fetchWord s) = .ok (.rnd x kk) ∧ t = randomEffect r x kk s) ∨
    ∃ i, decodeWord (fetchWord s) = .ok i ∧ exec i s = .next t := by
  unfold stepWith at h
  split at h
  · next x kk hd => exact .inl ⟨x, kk, hd, (Host.Outcome.next.inj h).symm⟩
  · next i _ hd => exact .inr ⟨i, hd, h⟩
  · cases h

/-- A `Load` that completes writes memory alone (R252). -/
theorem load_eq_next {bytes : List Byte} {base : Nat} (h : load bytes base s = .next t) :
    base + bytes.length ≤ memSize ∧ t = { s with mem := Memory.writeList s.cfg.font base bytes s.mem } := by
  unfold load at h
  split at h
  · cases h
  · next hle => exact ⟨Nat.not_lt.1 hle, (Host.Outcome.next.inj h).symm⟩

/-- A move leaves the state as it was, or completes in the state it leaves (R255, R259). -/
theorem afterMove_cases (m : HostMove) (s : State) : afterMove m s = s ∨ applyMove m s = .next (afterMove m s) := by
  unfold afterMove
  cases applyMove m s with
  | next t => exact .inr rfl
  | fault f => exact .inl rfl
  | refused r => exact .inl rfl

/-- A move that completes and makes a flag true is the `InputSet` that presses it (R229). -/
theorem inputSet_of_applyMove {m : HostMove} (h : applyMove m s = .next t) (hs : readKey k s = false)
    (ht : readKey k t = true) : m = .inputSet k true := by
  have hchanged : readKey k t ≠ readKey k s := by simp [hs, ht]
  cases m with
  | step r =>
    obtain ⟨x, kk, -, rfl⟩ | ⟨i, -, hi⟩ := stepWith_eq_next h
    · exact absurd rfl hchanged
    · exact absurd (exec_presses_no_key hi ht) (ne_true_of_eq_false hs)
  | load bytes base =>
    obtain ⟨-, rfl⟩ := load_eq_next h
    exact absurd rfl hchanged
  | reset =>
    cases h
    exact absurd (readKey_initial s.cfg k) (ne_false_of_eq_true ht)
  | timerTick =>
    cases h
    exact absurd rfl hchanged
  | inputSet j b =>
    cases h
    by_cases e : k = j
    · subst e
      rw [← ht, inputSet, readKey_writeKey_same]
    · exact absurd (readKey_writeKey_other e b s) hchanged
  | read =>
    cases h
    exact absurd rfl hchanged

/-- Settles O50: `InputSet` is one write of a flag; a move that fails changes nothing, and of those that complete only `InputSet`
makes a flag true. -/
theorem onlyInputSetPressesAKey : Obligations.OnlyInputSetPressesAKey := by
  refine ⟨fun k b s => ⟨inputSet k b s, rfl, readKey_writeKey_same k b s, fun j hj => readKey_writeKey_other hj b s,
    by simp [inputSet]⟩, fun m k s hs ht => ?_⟩
  obtain e | h := afterMove_cases m s
  · rw [e, hs] at ht
    cases ht
  · exact inputSet_of_applyMove h hs ht

end Sys2Proof.Machine
end

section
/-! SUPPORT. Memory stays canonical and the parameters stay what they are, over every instruction, every move of the host and every
interleaving of moves (spec/60_exceptions.md R259, R260). -/

namespace Sys2Proof.Machine

variable {i : Instr} {m : HostMove} {s t : State}

/-! ## What an instruction does to memory -/

@[simp] theorem consumeKey_mem (k : Option KeyIdx) (s : State) : (consumeKey k s).mem = s.mem := by cases k <;> rfl

@[simp] theorem loadLoop_mem (source : State) (i0 : Addr) (n : Nat) (s : State) : (loadLoop source i0 n s).mem = s.mem := by
  rw [loadLoop_eq]

/-- An instruction outside the two stores leaves the very list that holds memory (R54); the frame says so of its reads. -/
theorem exec_mem (h : exec i s = .next t) (hm : Part.mem ∉ writesParts i) : t.mem = s.mem := by
  cases i
  case ldBcd | storeRegs => simp [writesParts] at hm
  case sys nnn =>
    obtain ⟨-, rfl⟩ := execSys_eq_next h
    rfl
  case skp x =>
    obtain ⟨-, rfl⟩ | ⟨-, rfl⟩ := execSkp_eq_next h
    · exact consumeKey_mem _ s
    · rfl
  case ldVxKey x =>
    obtain ⟨-, rfl⟩ | ⟨k, -, ⟨-, rfl⟩ | ⟨-, rfl⟩⟩ := execLdVxKey_eq_next h <;> rfl
  case loadRegs x =>
    cases h
    exact loadLoop_mem s s.i (x.toNat + 1) s
  all_goals
    cases h
    rfl

theorem inv_congr (hm : t.mem = s.mem) (hc : t.cfg = s.cfg) : t.Inv ↔ s.Inv := by rw [State.Inv, State.Inv, hm, hc]

/-- The two stores write bytes inside memory, and no other instruction touches it. -/
theorem exec_keeps_inv (hs : s.Inv) (h : exec i s = .next t) : t.Inv := by
  cases i
  case ldBcd x =>
    cases h
    exact wf_writeByte _ _ (wf_writeByte _ _ (wf_writeByte _ _ hs))
  case storeRegs x =>
    cases h
    exact wf_storeLoop s s.i (x.toNat + 1) hs
  all_goals exact (inv_congr (exec_mem h (by simp [writesParts])) (exec_onlyChanges h).1).2 hs

/-! ## Moves of the host -/

/-- A move that completes keeps memory canonical: a step by its instruction, `Load` because it stays inside memory, `Reset` because
it empties the list; no other move writes memory (R259). -/
theorem applyMove_keeps_inv (hs : s.Inv) (h : applyMove m s = .next t) : t.Inv := by
  cases m with
  | step r =>
    obtain ⟨x, kk, -, rfl⟩ | ⟨i, -, hi⟩ := stepWith_eq_next h
    · exact hs
    · exact exec_keeps_inv hs hi
  | load bytes base =>
    obtain ⟨hle, rfl⟩ := load_eq_next h
    exact Memory.wf_writeList bytes hle hs
  | reset =>
    cases h
    exact initial_inv s.cfg
  | timerTick | inputSet k b | read =>
    cases h
    exact hs

/-- No move writes the parameters, and `Reset` keeps them (logs 2 and 8). -/
theorem applyMove_cfg (h : applyMove m s = .next t) : t.cfg = s.cfg := by
  cases m with
  | step r =>
    obtain ⟨x, kk, -, rfl⟩ | ⟨i, -, hi⟩ := stepWith_eq_next h
    · rfl
    · exact (exec_onlyChanges hi).1
  | load bytes base =>
    obtain ⟨-, rfl⟩ := load_eq_next h
    rfl
  | reset | timerTick | inputSet k b | read =>
    cases h
    rfl

/-- A move that fails leaves the state, so no move breaks the invariant or changes the parameters (R255). -/
theorem afterMove_keeps_inv_cfg (m : HostMove) (hs : s.Inv) : (afterMove m s).Inv ∧ (afterMove m s).cfg = s.cfg := by
  obtain e | h := afterMove_cases m s
  · rw [e]
    exact ⟨hs, rfl⟩
  · exact ⟨applyMove_keeps_inv hs h, applyMove_cfg h⟩

/-- Settles O56: by induction on the list of moves, each of which keeps both. -/
theorem everyInterleavingKeepsTheInvariant : Obligations.EveryInterleavingKeepsTheInvariant := by
  intro ms
  induction ms with
  | nil => exact fun s hs => ⟨hs, rfl⟩
  | cons m ms ih =>
    intro s hs
    obtain ⟨hinv, hcfg⟩ := afterMove_keeps_inv_cfg m hs
    obtain ⟨hinv', hcfg'⟩ := ih (afterMove m s) hinv
    exact ⟨hinv', hcfg'.trans hcfg⟩

end Sys2Proof.Machine
end

section
/-! SUPPORT. The two errors of the block: which steps end with `IllegalOpcode`, which loads end with `LoadOverflow`, and that every
other move completes (spec/60_exceptions.md R250 to R255). -/

namespace Sys2Proof.Machine

variable {i : Instr} {s : State} {r : Byte}

/-! ## Instructions -/

/-- Every instruction but an illegal `SYS` completes: each meaning answers a next state on all its branches (R250). -/
theorem exec_completes (h : s.cfg.sysMode = .nop ∨ ∀ nnn, i ≠ .sys nnn) : ∃ t, exec i s = .next t := by
  cases i
  case sys nnn =>
    have hm : s.cfg.sysMode = .nop := h.resolve_right fun hne => hne nnn rfl
    exact ⟨_, exec_sys_nop hm⟩
  case skp x =>
    by_cases hk : ∃ k, keyOf s.cfg.keyOor (readV x s) = some k ∧ readKey k s = true
    · obtain ⟨k, hk, hp⟩ := hk
      exact ⟨_, exec_skp_pressed hk hp⟩
    · exact ⟨_, exec_skp_not_pressed fun k hk' => eq_false_of_ne_true fun hp => hk ⟨k, hk', hp⟩⟩
  case ldVxKey x =>
    cases hk : lowestKey s with
    | none => exact ⟨_, exec_ldVxKey_none x hk⟩
    | some k => exact ⟨_, exec_ldVxKey_some x hk⟩
  all_goals exact ⟨_, rfl⟩

/-- Settles O11: `SYS` under `nop` completes, and no other instruction has an error of its own. -/
theorem everyInstructionCompletes : Obligations.EveryInstructionCompletes := fun _ _ => exec_completes

/-! ## Steps -/

/-- The word at PC is one that a step reports as `IllegalOpcode`: it decodes to nothing, or to `SYS` under `SYS_MODE = illegal`
(R101, R251). -/
def illegalAtPc (s : State) : Prop :=
  decodeWord (fetchWord s) = .illegal ∨ (s.cfg.sysMode = .illegal ∧ ∃ nnn, decodeWord (fetchWord s) = .ok (.sys nnn))

/-- The word at PC is reported, or decodes to an instruction that completes. -/
theorem illegalAtPc_or_completes (s : State) :
    illegalAtPc s ∨ ∃ i, decodeWord (fetchWord s) = .ok i ∧ (s.cfg.sysMode = .nop ∨ ∀ nnn, i ≠ .sys nnn) := by
  cases hd : decodeWord (fetchWord s) with
  | illegal => exact .inl (.inl hd)
  | ok i =>
    cases hm : s.cfg.sysMode with
    | nop => exact .inr ⟨i, rfl, .inl rfl⟩
    | illegal =>
      by_cases hi : ∃ nnn, i = .sys nnn
      · obtain ⟨nnn, rfl⟩ := hi
        exact .inl (.inr ⟨hm, nnn, hd⟩)
      · exact .inr ⟨i, rfl, .inr fun nnn e => hi ⟨nnn, e⟩⟩

theorem step_of_illegal (h : decodeWord (fetchWord s) = .illegal) :
    step s = .fault (.illegalOpcode (fetchWord s) s.pc) := by
  simp only [step, h, raiseIllegalOpcode]

theorem stepWith_of_illegal (h : decodeWord (fetchWord s) = .illegal) :
    stepWith r s = .fault (.illegalOpcode (fetchWord s) s.pc) := by
  simp only [stepWith, h, raiseIllegalOpcode]

/-- On every word but `RND`'s the host's draw makes no difference (R259, R284). -/
theorem stepWith_of_decode (h : decodeWord (fetchWord s) = .ok i) (hi : ∀ x kk, i ≠ .rnd x kk) : stepWith r s = exec i s := by
  unfold stepWith
  split
  · next x kk hd => exact absurd (Decoded.ok.inj (h.symm.trans hd)) (hi x kk)
  · next j _ hd => rw [Decoded.ok.inj (h.symm.trans hd)]
  · next hd => cases h.symm.trans hd

/-- The word that an illegal `SYS` reports is its encoding, which is the word fetched (R101). -/
theorem exec_sys_at_pc {nnn : Addr} (hm : s.cfg.sysMode = .illegal) (hd : decodeWord (fetchWord s) = .ok (.sys nnn)) :
    exec (.sys nnn) s = .fault (.illegalOpcode (fetchWord s) s.pc) := by
  rw [exec_sys_illegal hm, encode_of_decodeWord hd]

theorem step_of_illegalAtPc (h : illegalAtPc s) : step s = .fault (.illegalOpcode (fetchWord s) s.pc) := by
  obtain hd | ⟨hm, nnn, hd⟩ := h
  · exact step_of_illegal hd
  · rw [step_of_decode hd, exec_sys_at_pc hm hd]

theorem stepWith_of_illegalAtPc (h : illegalAtPc s) : stepWith r s = .fault (.illegalOpcode (fetchWord s) s.pc) := by
  obtain hd | ⟨hm, nnn, hd⟩ := h
  · exact stepWith_of_illegal hd
  · rw [stepWith_of_decode hd (by simp), exec_sys_at_pc hm hd]

/-- A step with the host's draw reports the word at PC, or completes (R250, R251). -/
theorem stepWith_cases (r : Byte) (s : State) :
    (illegalAtPc s ∧ stepWith r s = .fault (.illegalOpcode (fetchWord s) s.pc)) ∨ ∃ t, stepWith r s = .next t := by
  obtain h | ⟨i, hd, hi⟩ := illegalAtPc_or_completes s
  · exact .inl ⟨h, stepWith_of_illegalAtPc h⟩
  · right
    by_cases hr : ∃ x kk, i = .rnd x kk
    · obtain ⟨x, kk, rfl⟩ := hr
      exact ⟨_, stepWith_rnd hd⟩
    · rw [stepWith_of_decode hd fun x kk e => hr ⟨x, kk, e⟩]
      exact exec_completes hi

/-- Settles O12: a word that is not reported decodes to an instruction that completes, and a reported one ends the step. -/
theorem stepIsSafeExactlyWhenItDecodes : Obligations.StepIsSafeExactlyWhenItDecodes := by
  intro s
  constructor
  · rintro ⟨t, ht⟩
    refine (illegalAtPc_or_completes s).resolve_left fun h => ?_
    cases (step_of_illegalAtPc h).symm.trans ht
  · rintro ⟨i, hd, hi⟩
    rw [SafeStep, step_of_decode hd]
    exact exec_completes hi

/-! ## Moves of the host -/

theorem load_of_overflow {bytes : List Byte} {base : Nat} (h : memSize < base + bytes.length) (s : State) :
    load bytes base s = .fault (.loadOverflow base bytes.length) := if_pos h

theorem load_of_fits {bytes : List Byte} {base : Nat} (h : base + bytes.length ≤ memSize) (s : State) :
    load bytes base s = .next { s with mem := Memory.writeList s.cfg.font base bytes s.mem } := if_neg (Nat.not_lt.2 h)

/-- A move is a step that reports the word at PC, or a `Load` past the end of memory, or it completes (R250). -/
theorem applyMove_cases (m : HostMove) (s : State) :
    (∃ r, m = .step r ∧ illegalAtPc s ∧ applyMove m s = .fault (.illegalOpcode (fetchWord s) s.pc)) ∨
    (∃ bytes base, m = .load bytes base ∧ memSize < base + bytes.length ∧
      applyMove m s = .fault (.loadOverflow base bytes.length)) ∨
    ∃ t, applyMove m s = .next t := by
  cases m with
  | step r =>
    obtain ⟨h, hf⟩ | hn := stepWith_cases r s
    · exact .inl ⟨r, rfl, h, hf⟩
    · exact .inr (.inr hn)
  | load bytes base =>
    obtain h | h := Nat.lt_or_ge memSize (base + bytes.length)
    · exact .inr (.inl ⟨bytes, base, rfl, h, load_of_overflow h s⟩)
    · exact .inr (.inr ⟨_, load_of_fits h s⟩)
  | reset | timerTick | inputSet k b | read => exact .inr (.inr ⟨_, rfl⟩)

/-- Settles O10: of the three ways a move ends, two are faults, each with its cause, and none is a refusal. -/
theorem onlyTwoErrorsAndTheirCauses : Obligations.OnlyTwoErrorsAndTheirCauses := by
  constructor
  · intro m s f hf
    obtain ⟨r, rfl, hill, he⟩ | ⟨bytes, base, rfl, hlt, he⟩ | ⟨t, he⟩ := applyMove_cases m s
    · exact .inl ⟨r, rfl, Host.Outcome.fault.inj (hf.symm.trans he), hill⟩
    · exact .inr ⟨bytes, base, rfl, Host.Outcome.fault.inj (hf.symm.trans he), hlt⟩
    · cases hf.symm.trans he
  · intro m s r hr
    obtain ⟨_, -, -, he⟩ | ⟨_, _, -, -, he⟩ | ⟨t, he⟩ := applyMove_cases m s <;> cases hr.symm.trans he

theorem afterMove_of_fault {m : HostMove} {f : Fault} (h : applyMove m s = .fault f) : afterMove m s = s := by
  simp only [afterMove, h]

/-- Settles O13: whether the word at PC is reported does not depend on the draw, and the error leaves the state. -/
theorem illegalOpcodeRepeats : Obligations.IllegalOpcodeRepeats := by
  intro r r' s f hf
  have hs : afterMove (.step r) s = s := afterMove_of_fault hf
  refine ⟨hs, ?_⟩
  rw [hs]
  obtain ⟨hill, he⟩ | ⟨t, he⟩ := stepWith_cases r s
  · exact (stepWith_of_illegalAtPc hill).trans (he.symm.trans hf)
  · cases he.symm.trans hf

/-! ## Load -/

/-- The copy of a list seen from an address: its byte where the list covers the address, and what was there elsewhere (R252). -/
theorem readByte_load {bytes : List Byte} {base : Nat} {t : State} (h : load bytes base s = .next t) (a : Addr) :
    readByte a t =
      if hc : base ≤ a.toNat ∧ a.toNat < base + bytes.length then bytes[a.toNat - base]'(by omega) else readByte a s := by
  obtain ⟨-, rfl⟩ := load_eq_next h
  exact Memory.read_writeList

/-- A load that completes changes memory alone (R252). -/
theorem onlyChanges_load {bytes : List Byte} {base : Nat} {t : State} (h : load bytes base s = .next t) :
    onlyChanges [.mem] s t := by
  obtain ⟨-, rfl⟩ := load_eq_next h
  apply onlyChanges_of_fields <;> simp

/-- Settles O51: one case on each side of the bound; inside memory no address of the copy wraps. -/
theorem loadCopiesOrOverflows : Obligations.LoadCopiesOrOverflows := by
  refine fun bytes base s => ⟨fun hover => ?_, fun hfits => ?_⟩
  · have hf : applyMove (.load bytes base) s = .fault (.loadOverflow base bytes.length) := load_of_overflow hover s
    exact ⟨hf, afterMove_of_fault hf⟩
  · have ht := load_of_fits hfits s
    refine ⟨_, ht, fun j hj => ?_, fun a ha => ?_, onlyChanges_load ht⟩
    · have haddr : (BitVec.ofNat 12 (base + j)).toNat = base + j := by
        rw [BitVec.toNat_ofNat]
        omega
      rw [readByte_load ht, dif_pos (by omega)]
      simp [haddr]
    · rw [readByte_load ht, dif_neg (by omega)]

end Sys2Proof.Machine
end

section
/-! SUPPORT. The latch and the timers reach a program only through their four readers (spec/60_exceptions.md R257), and a jump to
itself leaves the whole state (R264). -/

namespace Sys2Proof.Machine

variable {i : Instr} (keys : Vector Bool 16) (dt st : Byte)

/-! ## Other inputs in a state -/

/-- The state with another latch and other timers, all else as it is (R257). -/
def State.withInputs (s : State) : State := { s with keys := keys, dt := dt, st := st }

theorem onlyChanges_withInputs (s : State) : onlyChanges [.keys, .dt, .st] s (s.withInputs keys dt st) := by
  apply onlyChanges_of_fields <;> simp [State.withInputs]

theorem storeLoop_withInputs (regs : State) (i0 : Addr) (n : Nat) (s : State) :
    storeLoop (regs.withInputs keys dt st) i0 n (s.withInputs keys dt st) =
      (storeLoop regs i0 n s).withInputs keys dt st := by
  induction n with
  | zero => rfl
  | succ n ih => rw [storeLoop, ih]; rfl

theorem loadLoop_withInputs (source : State) (i0 : Addr) (n : Nat) (s : State) :
    loadLoop (source.withInputs keys dt st) i0 n (s.withInputs keys dt st) =
      (loadLoop source i0 n s).withInputs keys dt st := by
  induction n with
  | zero => rfl
  | succ n ih => rw [loadLoop, ih]; rfl

theorem drawRows_withInputs (source : State) (i0 : Addr) (cx cy : Byte) (n : Nat) (acc : Display × Bool) :
    drawRows (source.withInputs keys dt st) i0 cx cy n acc = drawRows source i0 cx cy n acc := by
  induction n with
  | zero => rfl
  | succ n ih => rw [drawRows, ih]; rfl

/-! ## Instructions that read no input -/

/-- A change of the inputs between two next states is all the difference there is. -/
theorem sameButInputs_of_next {a b : Result} (ha : a = .next t) (hb : b = .next (t.withInputs keys dt st)) :
    sameButInputs a b := by
  subst ha hb
  exact onlyChanges_withInputs keys dt st t

/-- A meaning that reads no input ends with the inputs it was given, but for a timer that it writes itself, and with all else as
without them (R257). -/
theorem exec_sameButInputs (hi : readsInputs i = false) (s : State) :
    sameButInputs (exec i s) (exec i (s.withInputs keys dt st)) := by
  cases i
  case skp | sknp | ldVxKey | ldVxDt => cases hi
  case sys nnn =>
    cases hm : s.cfg.sysMode with
    | illegal =>
      rw [exec_sys_illegal hm, exec_sys_illegal (s := s.withInputs keys dt st) hm]
      rfl
    | nop => exact sameButInputs_of_next keys dt st (exec_sys_nop hm) (exec_sys_nop (s := s.withInputs keys dt st) hm)
  case ldDtVx x => exact sameButInputs_of_next keys (readV x s) st rfl rfl
  case ldStVx x => exact sameButInputs_of_next keys dt (readV x s) rfl rfl
  case drw x y n =>
    refine sameButInputs_of_next keys dt st rfl ?_
    rw [exec, execDrw, drawRows_withInputs]
    rfl
  case storeRegs x =>
    refine sameButInputs_of_next keys dt st rfl ?_
    rw [exec, execStoreRegs, storeLoop_withInputs]
    rfl
  case loadRegs x =>
    refine sameButInputs_of_next keys dt st rfl ?_
    rw [exec, execLoadRegs, loadLoop_withInputs]
    rfl
  all_goals exact sameButInputs_of_next keys dt st rfl rfl

/-- Settles O59: the same word is fetched, and it is illegal for both or runs the same meaning, which reads no input. -/
theorem inputsReachOnlyTheirReaders : Obligations.InputsReachOnlyTheirReaders := by
  intro s keys dt st hread
  have hfetch : fetchWord (s.withInputs keys dt st) = fetchWord s := fetchWord_congr rfl rfl rfl
  show sameButInputs (step s) (step (s.withInputs keys dt st))
  cases hd : decodeWord (fetchWord s) with
  | illegal =>
    rw [step_of_illegal hd, step_of_illegal (hfetch ▸ hd), hfetch]
    rfl
  | ok i =>
    rw [step_of_decode hd, step_of_decode (hfetch ▸ hd)]
    exact exec_sameButInputs keys dt st (hread i hd) s

/-! ## A jump to itself -/

theorem writePc_self (s : State) : writePc s.pc s = s := rfl

/-- Settles O14: the word is that of a jump to PC, which writes PC with what it holds. -/
theorem selfJumpLeavesTheState : Obligations.SelfJumpLeavesTheState := by
  intro s hw
  obtain ⟨-, hdec, -⟩ := encodedAs_of_encode (i := .jp s.pc) rfl (nibble_addr_word 0x1#4 s.pc)
  have hjump : step s = .next (writePc s.pc s) := step_of_decode (hw ▸ hdec)
  rw [hjump, writePc_self]

end Sys2Proof.Machine
end

section
/-! SUPPORT. What one step runs: the instruction that the two bytes at PC decode to, and the same with a draw of the host but for
the byte that `Cxkk` reads (spec/70_reset_and_hazards.md R284). -/

namespace Sys2Proof

variable {hi lo : Byte} {rest rest' : List Byte} {i : Instr} {w : OpWord}

/-! ## The decoder on two bytes -/

/-- Two bytes begin with the instruction of their word, and the bytes after them are left (R52, R70). -/
theorem decodeBytes_eq_ok_iff :
    decodeBytes (hi :: lo :: rest) = .ok i rest' ↔ decodeWord (wordOfBytes hi lo) = .ok i ∧ rest = rest' := by
  cases hd : decodeWord (wordOfBytes hi lo) <;> simp [decodeBytes, hd]

/-- Two bytes are reported as an illegal word when that word is theirs and decodes to nothing (R75). -/
theorem decodeBytes_eq_illegalWord_iff :
    decodeBytes (hi :: lo :: rest) = .error (.illegalWord w) ↔
      decodeWord (wordOfBytes hi lo) = .illegal ∧ wordOfBytes hi lo = w := by
  cases hd : decodeWord (wordOfBytes hi lo) <;> simp [decodeBytes, hd]

end Sys2Proof

namespace Sys2Proof.Machine

variable {s : State} {x : RegIdx} {kk : Byte}

/-! ## A step with a draw of the host -/

/-- On every word but `RND`'s the draw of the host is not read (R259, R284). -/
theorem stepWith_eq_step (h : ∀ x kk, decodeWord (fetchWord s) ≠ .ok (.rnd x kk)) (r : Byte) : stepWith r s = step s := by
  cases hd : decodeWord (fetchWord s) with
  | illegal => rw [stepWith_of_illegal hd, step_of_illegal hd]
  | ok i =>
    have hi : ∀ x kk, i ≠ .rnd x kk := fun x kk e => h x kk (e ▸ hd)
    rw [stepWith_of_decode hd hi, step_of_decode hd]

/-- On a word of `RND` the model's step has the effect of its own draw, and counts it (log 1). -/
theorem step_rnd (h : decodeWord (fetchWord s) = .ok (.rnd x kk)) :
    step s = .next (countDraw (randomEffect (Config.randByte s.draws) x kk s)) := step_of_decode h

/-- The effect of a draw leaves the count of draws, so to put the count back undoes the counting (log 1). -/
theorem countDraw_randomEffect_uncounted (r : Byte) (x : RegIdx) (kk : Byte) (s : State) :
    { countDraw (randomEffect r x kk s) with draws := s.draws } = randomEffect r x kk s := rfl

/-- Settles O32: only `RND` reads the draw, and with the same draw both steps have its effect, which the model's step counts. -/
theorem stepWithADrawIsTheStep : Obligations.StepWithADrawIsTheStep := by
  refine fun r s => ⟨fun h => stepWith_eq_step h r, ?_⟩
  rintro x kk hd rfl
  exact ⟨_, step_rnd hd, by rw [stepWith_rnd hd, countDraw_randomEffect_uncounted]⟩

/-! ## The decoded instruction -/

/-- Settles O9: the word of the two bytes at PC is the word that the step fetches and decodes. -/
theorem stepRunsTheDecodedInstruction : Obligations.StepRunsTheDecodedInstruction := by
  refine fun s => ⟨fun i hb => ?_, fun w hb => ?_⟩
  · obtain ⟨hd, -⟩ := decodeBytes_eq_ok_iff.1 hb
    exact step_of_decode hd
  · obtain ⟨hd, rfl⟩ := decodeBytes_eq_illegalWord_iff.1 hb
    exact step_of_illegal hd

end Sys2Proof.Machine
end

section
/-! SUPPORT. What one step of the model keeps: memory in its canonical form (log 4; spec/20_memory.md R51), and what `Cxkk` does
with the model's own random byte (log 1; spec/41_register_alu.md R142). -/

namespace Sys2Proof.Machine

variable {s t : State}

/-! ## A step that completes -/

/-- A step that completes ran the instruction that the word at PC decodes to (R284). -/
theorem step_eq_next (h : step s = .next t) : ∃ i, decodeWord (fetchWord s) = .ok i ∧ exec i s = .next t := by
  cases hd : decodeWord (fetchWord s) with
  | illegal => cases (step_of_illegal hd).symm.trans h
  | ok i => exact ⟨i, rfl, (step_of_decode hd).symm.trans h⟩

/-- Settles O54: a step that completes is one instruction, and every instruction keeps memory canonical. -/
theorem stepKeepsMemoryCanonical : Obligations.StepKeepsMemoryCanonical := by
  intro s t hs h
  obtain ⟨i, -, hi⟩ := step_eq_next h
  exact exec_keeps_inv hs hi

/-! ## The model's random byte -/

theorem exec_rnd (x : RegIdx) (kk : Byte) (s : State) :
    exec (.rnd x kk) s = .next (countDraw (randomEffect (Config.randByte s.draws) x kk s)) := rfl

@[simp] theorem readV_randomEffect_same (r : Byte) (x : RegIdx) (kk : Byte) (s : State) :
    readV x (randomEffect r x kk s) = r &&& kk := by
  rw [randomEffect, readV_advance, readV_writeV_same]

theorem testBit_and_of_clear {r kk : Byte} {b : Nat} (h : kk.toNat.testBit b = false) :
    (r &&& kk).toNat.testBit b = false := by
  rw [BitVec.toNat_and, Nat.testBit_and, h, Bool.and_false]

/-- Settles O31: `RND` counts the draw and writes the masked byte; its footprint is that of every instruction's frame. -/
theorem rndTakesTheFreeByte : Obligations.RndTakesTheFreeByte := by
  intro x kk s
  have h := exec_rnd x kk s
  have hx : readV x (countDraw (randomEffect (Config.randByte s.draws) x kk s)) = Config.randByte s.draws &&& kk := by
    rw [readV_countDraw, readV_randomEffect_same]
  refine ⟨_, h, hx, fun b _ hb => ?_, rfl, fun k hk => ?_, pcNext_advance s, exec_onlyChanges h⟩
  · rw [hx, testBit_and_of_clear hb]
  · exact exec_keeps_other_regs h (by simpa [mayWriteReg] using hk)

end Sys2Proof.Machine
end
